-- ==== Sys2Proof/Word.lean ====
section
/-! DEFINITION. The two value widths the engine computes with, and the width of the byte counter
(00_scope.md R8, R10). All quantities are unsigned. -/

namespace Sys2Proof

/-- A byte, 8 bits (R10). -/
abbrev Byte := BitVec 8

/-- A word, 32 bits (R10, R8 `WORD_BITS`). Addition of words is `add32`: it wraps modulo 2^32 (R11). -/
abbrev Word := BitVec 32

/-- A 64-bit value: `total_length`, `LEN` and the length footer (R8 `LEN_BITS`). -/
abbrev Dword := BitVec 64

/-- The command word, 72 bits (30_encoding.md R61, `CMD_BITS`). -/
abbrev CmdWord := BitVec 72

end Sys2Proof
end

