-- ==== Sys2Proof/Config.lean ====
section
/-! DEFINITION. What the builder of an engine fixes: the parameter `ALG` (00_scope.md R2, R9). Everything
else that differs between the two instances is a function of it (Machine/Params.lean). The model has no
free value: the spec's only unspecified values cannot be read (10_state.md R39, R32). -/

namespace Sys2Proof

/-- The instance parameter `ALG` (R2, R9). -/
inductive Alg where
  /-- The SHA-256-style instance. -/
  | sha256s
  /-- The MD5-style instance. -/
  | md5s
  deriving DecidableEq, Repr

/-- The parameter `ORDER` (R9): most or least significant byte first. -/
inductive ByteOrder where
  | be
  | le
  deriving DecidableEq, Repr

/-- Which instance `State.reset` is. DESIGN CHOICE (log entry 1): `ALG` is an open parameter of the spec
(93_implementation_defined.md U13) and the host's interface wants one reset state; unsafe for a claim
about `State.reset` alone, so no statement rests on it: `State.resetFor` covers both instances. -/
def Config.resetAlg : Alg := .sha256s

end Sys2Proof
end

