-- ==== Sys2Proof/Syntax.lean ====
section
/-! DEFINITION. The engine's commands (30_encoding.md R60, R62), what the host presents at the command
interface, and the pseudo-commands of the text form (R72). -/

namespace Sys2Proof

/-- The four commands, one constructor per row of the opcode table. The transaction is the instruction
(R60): an `UPDATE` carries its payload, and its operand `LEN` is the payload's length. -/
inductive Instr where
  /-- `INIT` (45_session_commands.md R150). -/
  | init
  /-- `UPDATE` with the payload `data[0 .. LEN-1]`, first byte first (43_update_buffer_manager.md R120). -/
  | update (data : List Byte)
  /-- `DIGEST` (44_digest_finalizer.md R135). -/
  | digest
  /-- `RDSTATUS` (45_session_commands.md R152). -/
  | rdstatus
  deriving DecidableEq, Repr

/-- One thing the host presents at the interface (R60; 70_reset_and_hazards.md R199). -/
inductive HostItem where
  /-- A command word (R61). -/
  | cmd (w : CmdWord)
  /-- One payload byte (20_memory.md R43). -/
  | data (b : Byte)
  /-- The hardware reset event (70_reset_and_hazards.md R185). -/
  | reset
  deriving DecidableEq, Repr

/-- The pseudo-commands of the text form (R72). -/
inductive Pseudo where
  /-- `hash <bytes>`: the one-shot digest of a message. -/
  | hash (bytes : List Byte)
  /-- `absorb <byte>`: an `UPDATE` with `LEN = 1`. -/
  | absorb (b : Byte)
  /-- `update.each <bytes>`: one `absorb` per byte, in order. -/
  | updateEach (bytes : List Byte)
  deriving DecidableEq, Repr

/-- The expansion of each pseudo-command (R72). -/
def Pseudo.expand : Pseudo → List Instr
  | .hash bytes => [.init, .update bytes, .digest]
  | .absorb b => [.update [b]]
  | .updateEach bytes => bytes.map fun b => .update [b]

end Sys2Proof
end

