-- ==== Sys2Proof/WellFormed.lean ====
section
/-! DEFINITION. Which instructions the encoding can carry: `LEN` is 64 bits, so a payload has at most
`2^64 - 1` bytes (30_encoding.md R63; 20_memory.md R40). -/

namespace Sys2Proof

/-- An instruction is well formed when its payload length fits the operand field `LEN` (R63). -/
def Instr.wellFormed : Instr → Bool
  | .init => true
  | .update data => decide (data.length < 2 ^ 64)
  | .digest => true
  | .rdstatus => true

end Sys2Proof
end

