-- ==== Sys2Proof/Decode.lean ====
section
/-! DEFINITION. Decoding of the 72-bit command word and of the transaction that follows it, total on
whatever the host presents (30_encoding.md R61, R62, R64, R67), and the encoder written from the same
table. -/

namespace Sys2Proof

/-- Why a command word is illegal (R64). -/
inductive IllegalWord where
  /-- `OP >= 0x04`. -/
  | reservedOp
  /-- `OP` is `0x00`, `0x02` or `0x03` and `LEN != 0`. -/
  | lenNotZero
  deriving DecidableEq, Repr

/-- What one command word says (R67). -/
inductive WordMeaning where
  | init
  | update (len : Dword)
  | digest
  | rdstatus
  | illegal (why : IllegalWord)
  deriving DecidableEq, Repr

/-- The field `OP`, bits 71:64 of the command word (R61). -/
def CmdWord.op (c : CmdWord) : Byte := c.extractLsb' 64 8

/-- The field `LEN`, bits 63:0 of the command word (R61). -/
def CmdWord.len (c : CmdWord) : Dword := c.extractLsb' 0 64

/-- Decoding of a command word, total (R67). -/
def decodeWord (c : CmdWord) : WordMeaning :=
  if CmdWord.op c = 0x01 then .update (CmdWord.len c)
  else if CmdWord.op c = 0x00 ∧ CmdWord.len c = 0 then .init
  else if CmdWord.op c = 0x02 ∧ CmdWord.len c = 0 then .digest
  else if CmdWord.op c = 0x03 ∧ CmdWord.len c = 0 then .rdstatus
  else if 0x04 ≤ (CmdWord.op c).toNat then .illegal .reservedOp
  else .illegal .lenNotZero

/-- What the host presents after the command word of an `UPDATE` (43_update_buffer_manager.md R132). -/
inductive Payload where
  /-- All `LEN` bytes, and what follows them. -/
  | complete (data : List Byte) (rest : List HostItem)
  /-- Fewer than `LEN` bytes so far: the command waits (R132). -/
  | short
  /-- A command word before the payload is complete: the host breaks 70_reset_and_hazards.md R190. -/
  | overlapped
  /-- A hardware reset before the payload is complete: the command is abandoned (R186). -/
  | abandoned (rest : List HostItem)
  deriving DecidableEq, Repr

/-- One payload byte in front of what was collected after it. -/
def Payload.push (b : Byte) : Payload → Payload
  | .complete data rest => .complete (b :: data) rest
  | .short => .short
  | .overlapped => .overlapped
  | .abandoned rest => .abandoned rest

/-- Takes `n` payload bytes in index order (R132; 20_memory.md R43). -/
def takePayload : List HostItem → Nat → Payload
  | items, 0 => .complete [] items
  | [], _ + 1 => .short
  | .data b :: items, n + 1 => (takePayload items n).push b
  | .cmd _ :: _, _ + 1 => .overlapped
  | .reset :: items, _ + 1 => .abandoned items

/-- What the front of the host's input is. -/
inductive Decoded where
  /-- A legal command with all of its payload, and what follows it. -/
  | instr (i : Instr) (rest : List HostItem)
  /-- An illegal command word; no payload belongs to it (R64). -/
  | illegal (why : IllegalWord) (rest : List HostItem)
  /-- The hardware reset event, between commands or in place of the command it abandons
  (70_reset_and_hazards.md R185, R186). -/
  | reset (rest : List HostItem)
  /-- Nothing is presented: the engine is idle (60_exceptions.md R184). -/
  | idle
  /-- An `UPDATE` whose payload has not arrived in full (43_update_buffer_manager.md R132). -/
  | payloadAwaited
  /-- A command word where payload bytes are still owed (70_reset_and_hazards.md R190). -/
  | overlappingCommand
  /-- A payload byte with no `UPDATE` outstanding (70_reset_and_hazards.md R191). -/
  | surplusPayload
  deriving DecidableEq, Repr

/-- An `UPDATE` together with the payload that was collected for it. -/
def Decoded.ofPayload : Payload → Decoded
  | .complete data rest => .instr (.update data) rest
  | .short => .payloadAwaited
  | .overlapped => .overlappingCommand
  | .abandoned rest => .reset rest

/-- The transaction that starts with the command word `c` (R60, R67). -/
def decodeCommand (c : CmdWord) (rest : List HostItem) : Decoded :=
  match decodeWord c with
  | .init => .instr .init rest
  | .update len => .ofPayload (takePayload rest len.toNat)
  | .digest => .instr .digest rest
  | .rdstatus => .instr .rdstatus rest
  | .illegal why => .illegal why rest

/-- Decoding of the host's input, total: every list of items gets one reading. -/
def decode : List HostItem → Decoded
  | [] => .idle
  | .cmd c :: rest => decodeCommand c rest
  | .data _ :: _ => .surplusPayload
  | .reset :: rest => .reset rest

/-! ### The encoder -/

/-- The opcode of each command (R62). -/
def Instr.opcode : Instr → Byte
  | .init => 0x00
  | .update _ => 0x01
  | .digest => 0x02
  | .rdstatus => 0x03

/-- The payload a command carries: empty but for `UPDATE` (R60). -/
def Instr.payload : Instr → List Byte
  | .init => []
  | .update data => data
  | .digest => []
  | .rdstatus => []

/-- The command word: `OP` in bits 71:64, `LEN` in bits 63:0 (R61, R62). -/
def encodeWord (i : Instr) : CmdWord :=
  i.opcode ++ BitVec.ofNat 64 i.payload.length

/-- The whole transaction as the host presents it: the command word, then the payload bytes (R60). -/
def encode (i : Instr) : List HostItem :=
  .cmd (encodeWord i) :: i.payload.map .data

/-! ### The opcode table's words -/

/-- The number of payload bytes the command word `c` asks for (R67). -/
def payloadOwed (c : CmdWord) : Nat :=
  match decodeWord c with
  | .init => 0
  | .update len => len.toNat
  | .digest => 0
  | .rdstatus => 0
  | .illegal _ => 0

/-- The transaction whose command word has the low `nbits` bits of `w` and whose payload is all zeros
(log entry 11): the 72-bit word is presented as a whole (R61), so it has no byte order. -/
def tableItems (nbits w : Nat) : List HostItem :=
  .cmd (BitVec.ofNat 72 (w % 2 ^ nbits)) ::
    List.replicate (payloadOwed (BitVec.ofNat 72 (w % 2 ^ nbits))) (.data 0)

/-- The instruction the decoder reads from a word of the opcode table. -/
def decodeTableWord (nbits w : Nat) : Option Instr :=
  match decode (tableItems nbits w) with
  | .instr i _ => some i
  | .illegal _ _ => none
  | .reset _ => none
  | .idle => none
  | .payloadAwaited => none
  | .overlappingCommand => none
  | .surplusPayload => none

end Sys2Proof
end

