-- ==== Sys2Proof/Machine/State.lean ====
section
/-! DEFINITION. The state of one engine (10_state.md R20), the interface queues of its transactions
(30_encoding.md R60), the reasons a step can stop, and the state after hardware reset (R35). -/

namespace Sys2Proof.Machine

/-- `words[0..7]` of the SHA-256-style instance (10_state.md R21, N = 8). -/
structure Words8 where
  w0 : Word
  w1 : Word
  w2 : Word
  w3 : Word
  w4 : Word
  w5 : Word
  w6 : Word
  w7 : Word
  deriving DecidableEq, Repr

/-- `words[0..3]` of the MD5-style instance (10_state.md R21, N = 4). -/
structure Words4 where
  w0 : Word
  w1 : Word
  w2 : Word
  w3 : Word
  deriving DecidableEq, Repr

/-- The register file `words` (R21). Its shape is the instance: an engine with eight words is a
SHA-256-style one, an engine with four an MD5-style one (00_scope.md R9; log entry 1). -/
inductive HashState where
  | sha256s (w : Words8)
  | md5s (w : Words4)
  deriving DecidableEq, Repr

/-- The block buffer as (offset, byte) pairs in one canonical form (Ops.lean `Memory.wf`). -/
abbrev Memory := List Host.Cell

/-- What the engine returns for one transaction: the response word and the result bytes
(30_encoding.md R68, R69). -/
structure Reply where
  resp : Byte
  result : List Byte
  deriving DecidableEq, Repr

/-- The state: the six registers of 10_state.md R20 and the two ends of the command interface. -/
structure State where
  /-- The running digest accumulator (R21). -/
  words : HashState
  /-- The 64-byte block buffer (R22). -/
  storage : Memory
  /-- How many bytes of `storage` are significant (R23). -/
  fill : BitVec 6
  /-- Bytes accepted since the last `INIT`, modulo 2^64 (R24). -/
  totalLength : Dword
  /-- The session state: `false` is `Uninitialized`, `true` is `Ready` (R25). -/
  ready : Bool
  /-- The first fault since hardware reset (R26). -/
  fault : BitVec 2
  /-- What the host presents from now on, oldest first (30_encoding.md R60; log entry 3). -/
  hostIn : List HostItem
  /-- The replies produced so far, oldest first (30_encoding.md R68, R69; log entry 4). -/
  hostOut : List Reply
  deriving DecidableEq, Repr

/-- Why the machine stands still. The engine's own two faults are not here: they are next states
(60_exceptions.md R174). -/
inductive Fault where
  /-- Raised by the step when an `UPDATE` is presented and its payload has not arrived in full: "the engine
  has no step until the missing bytes arrive" (43_update_buffer_manager.md R132,
  93_implementation_defined.md U9: stuck). Safe: no effect is claimed. -/
  | payloadAwaited
  deriving DecidableEq, Repr

/-- Why the step has no meaning. -/
inductive Refusal where
  /-- Raised by `exec` for an instruction that has no meaning yet. Safe. -/
  | notModelled (mnemonic : String)
  /-- Raised by the step when a command word stands where payload bytes are still owed: the host breaks
  70_reset_and_hazards.md R190 (93_implementation_defined.md U8: refuse). Safe. -/
  | overlappingCommand
  /-- Raised by the step when a payload byte is presented with no `UPDATE` outstanding: "a model has no step
  that consumes it" (70_reset_and_hazards.md R191, 93_implementation_defined.md U10: refuse). Safe. -/
  | surplusPayload
  deriving DecidableEq, Repr

/-- All `N` words zero, for either instance. -/
def HashState.zero : Alg → HashState
  | .sha256s => .sha256s ⟨0, 0, 0, 0, 0, 0, 0, 0⟩
  | .md5s => .md5s ⟨0, 0, 0, 0⟩

/-- The state right after hardware reset of either instance (10_state.md R35, 70_reset_and_hazards.md
R185): `ready = 0`, `fault = 0`. R35 leaves `words`, `storage`, `fill` and `total_length` unspecified; zero is
a DESIGN CHOICE (log entry 2), unsafe, and no rule lets it be read (R39). -/
def State.resetFor (alg : Alg) : State :=
  { words := HashState.zero alg
    storage := []
    fill := 0
    totalLength := 0
    ready := false
    fault := 0
    hostIn := []
    hostOut := [] }

/-- The machine right after reset. -/
def State.reset : State := State.resetFor Config.resetAlg

end Sys2Proof.Machine
end

