-- ==== Sys2Proof/Machine/Params.lean ====
section
/-! DEFINITION. The parameters of the two instances (00_scope.md R8, R9). -/

namespace Sys2Proof.Machine

/-- `BLOCK_SIZE` (R8): bytes in a block. -/
abbrev blockSize : Nat := 64

/-- `FOOTER_BYTES` (R8). -/
abbrev footerBytes : Nat := 8

/-- `ROUNDS` (R8). -/
def rounds : Nat := 64

/-- `SCHEDULE_WORDS` (R8): words parsed from a block. -/
def scheduleWords : Nat := 16

/-- `PAD_MARKER` (R8). -/
def markerByte : Byte := 0x80

/-- `N`, the number of state words (R9). -/
def numWords : Alg → Nat
  | .sha256s => 8
  | .md5s => 4

/-- `DIGEST_SIZE` in bytes (R9). -/
def digestSize : Alg → Nat
  | .sha256s => 32
  | .md5s => 16

/-- `ORDER`, the byte order of block parsing, of the footer and of the digest (R9). -/
def byteOrder : Alg → ByteOrder
  | .sha256s => .be
  | .md5s => .le

/-- `IV` of the SHA-256-style instance (R9; 41_compress_sha256.md R98). -/
def ivSha256s : Words8 :=
  ⟨0x6a09e667, 0xbb67ae85, 0x3c6ef372, 0xa54ff53a, 0x510e527f, 0x9b05688c, 0x1f83d9ab, 0x5be0cd19⟩

/-- `IV` of the MD5-style instance (R9; 42_compress_md5.md R113). -/
def ivMd5s : Words4 :=
  ⟨0x67452301, 0xefcdab89, 0x98badcfe, 0x10325476⟩

/-- `IV`, the initial state words (R9). -/
def iv : Alg → HashState
  | .sha256s => .sha256s ivSha256s
  | .md5s => .md5s ivMd5s

/-- The instance a register file belongs to (log entry 1). -/
def HashState.alg : HashState → Alg
  | .sha256s _ => .sha256s
  | .md5s _ => .md5s

/-- `words[0], words[1], …, words[N-1]`, in index order (10_state.md R21; 00_scope.md R13). -/
def HashState.toList : HashState → List Word
  | .sha256s w => [w.w0, w.w1, w.w2, w.w3, w.w4, w.w5, w.w6, w.w7]
  | .md5s w => [w.w0, w.w1, w.w2, w.w3]

/-- The instance a state belongs to. -/
def State.alg (s : State) : Alg := s.words.alg

end Sys2Proof.Machine
end

