-- ==== Sys2Proof/Machine/Operands.lean ====
section
/-! DEFINITION. The arithmetic primitives on words (00_scope.md R11), the byte-order primitives (R12), and the
64-byte block, the operand of a compression (40_compress_and_accumulator.md R80). -/

namespace Sys2Proof.Machine

/-! ### Arithmetic (R11). `add32`, `not32`, `&`, `|`, `^` are the operations of `BitVec 32`. -/

/-- `shr32(x, n)`: logical shift right, zero fill. -/
def shr32 (x : Word) (n : Nat) : Word := x >>> n

/-- `rotl32(x, n)`, used with `0 < n < 32`. -/
def rotl32 (x : Word) (n : Nat) : Word := (x <<< n) ||| (x >>> (32 - n))

/-- `rotr32(x, n)`, used with `0 < n < 32`. -/
def rotr32 (x : Word) (n : Nat) : Word := (x >>> n) ||| (x <<< (32 - n))

/-- `shl64_3(x) = (x * 8) mod 2^64`. -/
def shl64x3 (x : Dword) : Dword := x <<< 3

/-! ### Byte order (R12, 20_memory.md R45) -/

/-- `parse32_BE(b0, b1, b2, b3)`. -/
def parse32be (b0 b1 b2 b3 : Byte) : Word := b0 ++ b1 ++ b2 ++ b3

/-- `parse32_LE(b0, b1, b2, b3)`. -/
def parse32le (b0 b1 b2 b3 : Byte) : Word := b3 ++ b2 ++ b1 ++ b0

/-- `parse32_ORDER`. -/
def parse32 : ByteOrder → Byte → Byte → Byte → Byte → Word
  | .be, b0, b1, b2, b3 => parse32be b0 b1 b2 b3
  | .le, b0, b1, b2, b3 => parse32le b0 b1 b2 b3

/-- Byte `k` of a word, byte 0 the least significant: `w[8k+7 : 8k]`. -/
def byteOfWord (w : Word) (k : Nat) : Byte := w.extractLsb' (8 * k) 8

/-- Byte `k` of a 64-bit value, byte 0 the least significant: `v[8k+7 : 8k]`. -/
def byteOfDword (v : Dword) (k : Nat) : Byte := v.extractLsb' (8 * k) 8

/-- `enc32_ORDER(w)`: the four bytes of a word in sequence order. -/
def enc32 (o : ByteOrder) (w : Word) : List Byte :=
  match o with
  | .be => [3, 2, 1, 0].map (byteOfWord w)
  | .le => [0, 1, 2, 3].map (byteOfWord w)

/-- `enc64_ORDER(v)`: the eight bytes of a 64-bit value in sequence order. -/
def enc64 (o : ByteOrder) (v : Dword) : List Byte :=
  match o with
  | .be => [7, 6, 5, 4, 3, 2, 1, 0].map (byteOfDword v)
  | .le => [0, 1, 2, 3, 4, 5, 6, 7].map (byteOfDword v)

/-- `zeros(n)` (R13). -/
def zeroBytes (n : Nat) : List Byte := List.replicate n 0

/-! ### Blocks -/

/-- A block: exactly 64 bytes, by type (40_compress_and_accumulator.md R80, 93_implementation_defined.md
U7). -/
structure Block where
  bytes : List Byte
  size : bytes.length = 64
  deriving DecidableEq, Repr

/-- The block whose byte `i` is `f i`. -/
def Block.ofFn (f : Nat → Byte) : Block :=
  ⟨(List.range 64).map f, by simp⟩

/-- The first 64 bytes of a sequence that has at least 64 (43_update_buffer_manager.md R124). -/
def Block.ofList (l : List Byte) : Block := Block.ofFn fun i => l.getD i 0

/-- The 16 words parsed from a block, word 0 first: word `t` from bytes `4t .. 4t+3` (20_memory.md R45; 41_compress_sha256.md R90;
42_compress_md5.md R105). -/
def parseBlock (o : ByteOrder) (b : Block) : List Word :=
  (List.range scheduleWords).map fun t =>
    parse32 o (b.bytes.getD (4 * t) 0) (b.bytes.getD (4 * t + 1) 0)
      (b.bytes.getD (4 * t + 2) 0) (b.bytes.getD (4 * t + 3) 0)

/-- `enc32_ORDER(words[0]) ++ … ++ enc32_ORDER(words[N-1])` (44_digest_finalizer.md R142). -/
def serialise (h : HashState) : List Byte :=
  h.toList.flatMap (enc32 (byteOrder h.alg))

end Sys2Proof.Machine
end

