-- ==== Sys2Proof/Machine/Md5.lean ====
section
/-! DEFINITION. The MD5-style compression function (42_compress_md5.md R105 to R113). The spec supplies the
bodies and the tables from general knowledge (log entry 13). -/

namespace Sys2Proof.Machine

/-! ### The mixing function of each phase (R106) -/

def md5F (x y z : Word) : Word := (x &&& y) ||| (~~~x &&& z)
def md5G (x y z : Word) : Word := (x &&& z) ||| (y &&& ~~~z)
def md5H (x y z : Word) : Word := x ^^^ y ^^^ z
def md5I (x y z : Word) : Word := y ^^^ (x ||| ~~~z)

/-- `mix_i`: the mixing function of the phase of round `i` (R106, R111). -/
def md5Mix (i : Nat) (x y z : Word) : Word :=
  if i ≤ 15 then md5F x y z
  else if i ≤ 31 then md5G x y z
  else if i ≤ 47 then md5H x y z
  else md5I x y z

/-- `g(i)`: the index of the parsed word round `i` uses (R107). -/
def md5Index (i : Nat) : Nat :=
  if i ≤ 15 then i
  else if i ≤ 31 then (5 * i + 1) % 16
  else if i ≤ 47 then (3 * i + 5) % 16
  else (7 * i) % 16

/-- The rotate amounts `S[0..63]`, one phase a row (R109). -/
def md5S : List Nat :=
  [7, 12, 17, 22, 7, 12, 17, 22, 7, 12, 17, 22, 7, 12, 17, 22]
  ++ [5, 9, 14, 20, 5, 9, 14, 20, 5, 9, 14, 20, 5, 9, 14, 20]
  ++ [4, 11, 16, 23, 4, 11, 16, 23, 4, 11, 16, 23, 4, 11, 16, 23]
  ++ [6, 10, 15, 21, 6, 10, 15, 21, 6, 10, 15, 21, 6, 10, 15, 21]

/-- The round constants `K[0..63]`, eight a row (R108). -/
def md5K : List Word :=
  [0xd76aa478, 0xe8c7b756, 0x242070db, 0xc1bdceee, 0xf57c0faf, 0x4787c62a, 0xa8304613, 0xfd469501]
  ++ [0x698098d8, 0x8b44f7af, 0xffff5bb1, 0x895cd7be, 0x6b901122, 0xfd987193, 0xa679438e, 0x49b40821]
  ++ [0xf61e2562, 0xc040b340, 0x265e5a51, 0xe9b6c7aa, 0xd62f105d, 0x02441453, 0xd8a1e681, 0xe7d3fbc8]
  ++ [0x21e1cde6, 0xc33707d6, 0xf4d50d87, 0x455a14ed, 0xa9e3e905, 0xfcefa3f8, 0x676f02d9, 0x8d2a4c8a]
  ++ [0xfffa3942, 0x8771f681, 0x6d9d6122, 0xfde5380c, 0xa4beea44, 0x4bdecfa9, 0xf6bb4b60, 0xbebfbc70]
  ++ [0x289b7ec6, 0xeaa127fa, 0xd4ef3085, 0x04881d05, 0xd9d4d039, 0xe6db99e5, 0x1fa27cf8, 0xc4ac5665]
  ++ [0xf4292244, 0x432aff97, 0xab9423a7, 0xfc93a039, 0x655b59c3, 0x8f0ccc92, 0xffeff47d, 0x85845dd1]
  ++ [0x6fa87e4f, 0xfe2ce6e0, 0xa3014314, 0x4e0811a1, 0xf7537e82, 0xbd3af235, 0x2ad7d2bb, 0xeb86d391]

/-- One round on the parsed words `m`, all four assignments simultaneous; the working registers `a .. d`
stand in the places of words 0 to 3 (R110, R112). -/
def md5Round (i : Nat) (m : List Word) (r : Words4) : Words4 :=
  match r with
  | ⟨a, b, c, d⟩ =>
    let t := a + md5Mix i b c d + md5K.getD i 0 + m.getD (md5Index i) 0
    ⟨d, b + rotl32 t (md5S.getD i 0), b, c⟩

/-- Rounds `i, i+1, …` as many as the first argument says, on the parsed words `m` (R111). -/
def md5Rounds : Nat → Nat → List Word → Words4 → Words4
  | 0, _, _, r => r
  | n + 1, i, m, r => md5Rounds n (i + 1) m (md5Round i m r)

/-- The working registers after the first `n` rounds: loaded from the state words (R105, R112;
40_compress_and_accumulator.md R84). -/
def md5Working (n : Nat) (h : Words4) (b : Block) : Words4 :=
  md5Rounds n 0 (parseBlock .le b) h

/-- Feed-forward: element-wise `add32` (40_compress_and_accumulator.md R83). -/
def addWords4 (x y : Words4) : Words4 :=
  ⟨x.w0 + y.w0, x.w1 + y.w1, x.w2 + y.w2, x.w3 + y.w3⟩

/-- `compress_md5s(H, B)` (R111). -/
def compressMd5s (h : Words4) (b : Block) : Words4 :=
  addWords4 h (md5Working rounds h b)

end Sys2Proof.Machine
end

