-- ==== Sys2Proof/Machine/Flags.lean ====
section
/-! DEFINITION. The engine's only flag-like state, `ready` and `fault` (10_state.md R34): the status byte made of
them (R27), the sticky fault record (R26), and the response codes (30_encoding.md R68). The engine has no carry, zero, sign or overflow
flag. -/

namespace Sys2Proof.Machine

/-- The engine's two faults (60_exceptions.md R165). -/
inductive FaultCode where
  /-- `UPDATE` or `DIGEST` while `ready = 0` (R167). -/
  | notReady
  /-- An illegal command word (R166). -/
  | illegalCmd
  deriving DecidableEq, Repr

/-- `RESP = OK` (30_encoding.md R68). -/
def respOk : Byte := 0x00

/-- The response word of a fault (30_encoding.md R68; 60_exceptions.md R165). -/
def faultResp : FaultCode → Byte
  | .notReady => 0x01
  | .illegalCmd => 0x02

/-- The 2-bit record of a fault (10_state.md R26). -/
def faultRecord : FaultCode → BitVec 2
  | .notReady => 1
  | .illegalCmd => 2

/-- The sticky record: only the first fault since hardware reset is kept (10_state.md R26; 60_exceptions.md
R170). -/
def recordFault (code : FaultCode) (fault : BitVec 2) : BitVec 2 :=
  if fault = 0 then faultRecord code else fault

/-- `STATUS`: bits 7:3 zero, bits 2:1 `fault`, bit 0 `ready` (10_state.md R27). -/
def statusByte (fault : BitVec 2) (ready : Bool) : Byte :=
  (0 : BitVec 5) ++ fault ++ BitVec.ofBool ready

end Sys2Proof.Machine
end

