-- ==== Sys2Proof/Machine/Ops.lean ====
section
/-! DEFINITION. The named operations over the block buffer and the registers: `MemRead` and `MemWrite` (00_scope.md
R13, 20_memory.md R42), the reply, the effect of a fault (60_exceptions.md R170), the effect of `INIT` that
`DIGEST` shares (44_digest_finalizer.md R144), and hardware reset (70_reset_and_hazards.md R185). -/

namespace Sys2Proof.Machine

/-! ### The block buffer -/

/-- What an offset that is not listed reads as. `INIT` zeroes the buffer (10_state.md R36); before the first
`INIT` the bytes are unspecified (log entries 2 and 10). -/
abbrev Memory.unlisted : Byte := 0

/-- The byte at one offset. -/
def Memory.readByte : Memory → Nat → Byte
  | [], _ => Memory.unlisted
  | (a, b) :: m, x => if a = x then b else Memory.readByte m x

/-- The cells of the bytes `bs` laid from offset `a` up, none for a byte an unlisted offset reads as. -/
def Memory.cells : Nat → List Byte → Memory
  | _, [] => []
  | a, b :: bs =>
    if b = Memory.unlisted then Memory.cells (a + 1) bs else (a, b) :: Memory.cells (a + 1) bs

/-- The canonical form: offsets strictly rising, all of them below 64, no cell that reads as unlisted. -/
def Memory.wf (m : Memory) : Bool :=
  decide ((m.map Prod.fst).Pairwise (· < ·)) &&
    m.all fun c => decide (c.1 < blockSize) && decide (c.2 ≠ Memory.unlisted)

/-- `MemRead(addr, n)` (00_scope.md R13). -/
def memRead (m : Memory) (addr n : Nat) : List Byte :=
  (List.range n).map fun i => Memory.readByte m (addr + i)

/-- The bytes of `v` that `MemWrite(addr, …, v)` has room for: all of them in every use the engine makes,
since there `addr + n <= 64` (20_memory.md R42; log entry 10). -/
def writable (addr : Nat) (v : List Byte) : List Byte := v.take (blockSize - addr)

/-- `MemWrite(addr, n, v)` with `n` the length of `v` (00_scope.md R13): the cells below, the new bytes, the
cells above. -/
def memWrite (m : Memory) (addr : Nat) (v : List Byte) : Memory :=
  m.filter (fun c => decide (c.1 < addr))
    ++ Memory.cells addr (writable addr v)
    ++ m.filter (fun c => decide (addr + (writable addr v).length ≤ c.1))

/-- The whole buffer as a block: `MemRead(0, 64)` (40_compress_and_accumulator.md R82). -/
def storageBlock (m : Memory) : Block := Block.ofList (memRead m 0 blockSize)

/-- `zeros(64)` as the whole buffer (44_digest_finalizer.md R144; 45_session_commands.md R150): in the canonical form no offset is
listed, as `Memory.cells 0 (zeroBytes 64)` has it. -/
def zeroStorage : Memory := []

/-! ### Replies -/

/-- One transaction's response word and result bytes go to the host, after its effects (30_encoding.md
R68, R69). -/
def respond (resp : Byte) (result : List Byte) (s : State) : State :=
  { s with hostOut := s.hostOut ++ [⟨resp, result⟩] }

/-- `RESP = OK` with these result bytes. -/
def respondOk (result : List Byte) (s : State) : State := respond respOk result s

/-! ### Faults -/

/-- `raise Fault(code)` (60_exceptions.md R170): the sticky record and the response word, no result bytes, and
nothing else. Control goes nowhere, and there is nothing to return from (R172). -/
def raiseFault (code : FaultCode) (s : State) : State :=
  respond (faultResp code) [] { s with fault := recordFault code s.fault }

/-! ### Initialisation and reset -/

/-- What `INIT` does to the session: everything but `fault` (45_session_commands.md R150, 10_state.md R36). -/
def initSession (s : State) : State :=
  { s with
    words := iv s.alg
    storage := zeroStorage
    fill := 0
    totalLength := 0
    ready := true }

/-- Hardware reset (70_reset_and_hazards.md R185): the engine's own state as in `State.resetFor`; what the host
presents next and what it has been given are not the engine's (log entries 2 and 8). -/
def hardwareReset (s : State) : State :=
  { State.resetFor s.alg with hostIn := s.hostIn, hostOut := s.hostOut }

end Sys2Proof.Machine
end

