-- ==== Sys2Proof/Machine/Sha256.lean ====
section
/-! DEFINITION. The SHA-256-style compression function (41_compress_sha256.md R90 to R98). The spec supplies the
bodies and the table from general knowledge (log entry 13). -/

namespace Sys2Proof.Machine

/-! ### The six mixing functions (R91) -/

def sha256s0 (x : Word) : Word := rotr32 x 7 ^^^ rotr32 x 18 ^^^ shr32 x 3
def sha256s1 (x : Word) : Word := rotr32 x 17 ^^^ rotr32 x 19 ^^^ shr32 x 10
def sha256S0 (x : Word) : Word := rotr32 x 2 ^^^ rotr32 x 13 ^^^ rotr32 x 22
def sha256S1 (x : Word) : Word := rotr32 x 6 ^^^ rotr32 x 11 ^^^ rotr32 x 25
def sha256Ch (x y z : Word) : Word := (x &&& y) ^^^ (~~~x &&& z)
def sha256Maj (x y z : Word) : Word := (x &&& y) ^^^ (x &&& z) ^^^ (y &&& z)

/-- The round constants `K[0..63]`, eight a row (R93). -/
def sha256K : List Word :=
  [0x428a2f98, 0x71374491, 0xb5c0fbcf, 0xe9b5dba5, 0x3956c25b, 0x59f111f1, 0x923f82a4, 0xab1c5ed5]
  ++ [0xd807aa98, 0x12835b01, 0x243185be, 0x550c7dc3, 0x72be5d74, 0x80deb1fe, 0x9bdc06a7, 0xc19bf174]
  ++ [0xe49b69c1, 0xefbe4786, 0x0fc19dc6, 0x240ca1cc, 0x2de92c6f, 0x4a7484aa, 0x5cb0a9dc, 0x76f988da]
  ++ [0x983e5152, 0xa831c66d, 0xb00327c8, 0xbf597fc7, 0xc6e00bf3, 0xd5a79147, 0x06ca6351, 0x14292967]
  ++ [0x27b70a85, 0x2e1b2138, 0x4d2c6dfc, 0x53380d13, 0x650a7354, 0x766a0abb, 0x81c2c92e, 0x92722c85]
  ++ [0xa2bfe8a1, 0xa81a664b, 0xc24b8b70, 0xc76c51a3, 0xd192e819, 0xd6990624, 0xf40e3585, 0x106aa070]
  ++ [0x19a4c116, 0x1e376c08, 0x2748774c, 0x34b0bcb5, 0x391c0cb3, 0x4ed8aa4a, 0x5b9cca4f, 0x682e6ff3]
  ++ [0x748f82ee, 0x78a5636f, 0x84c87814, 0x8cc70208, 0x90befffa, 0xa4506ceb, 0xbef9a3f7, 0xc67178f2]

/-- The window update at the start of round `i`: nothing before round 16, one entry from then on (R92). -/
def sha256Window (i : Nat) (w : List Word) : List Word :=
  if 16 ≤ i then
    w.set (i % 16) (w.getD (i % 16) 0 + sha256s0 (w.getD ((i + 1) % 16) 0)
      + w.getD ((i + 9) % 16) 0 + sha256s1 (w.getD ((i + 14) % 16) 0))
  else w

/-- One round with the schedule word `wi`, all eight assignments simultaneous; the working registers
`a .. h` stand in the places of words 0 to 7 (R94, R95). -/
def sha256Round (i : Nat) (wi : Word) (r : Words8) : Words8 :=
  match r with
  | ⟨a, b, c, d, e, f, g, h⟩ =>
    let t1 := h + sha256S1 e + sha256Ch e f g + sha256K.getD i 0 + wi
    let t2 := sha256S0 a + sha256Maj a b c
    ⟨t1 + t2, a, b, c, d + t1, e, f, g⟩

/-- Rounds `i, i+1, …` as many as the first argument says, from the window `w` and the working registers
`r` (R96). -/
def sha256Rounds : Nat → Nat → List Word → Words8 → Words8
  | 0, _, _, r => r
  | n + 1, i, w, r =>
    sha256Rounds n (i + 1) (sha256Window i w) (sha256Round i ((sha256Window i w).getD (i % 16) 0) r)

/-- The working registers after the first `n` rounds: loaded from the state words, the window from the
block (R90, R92, R95; 40_compress_and_accumulator.md R84). -/
def sha256Working (n : Nat) (h : Words8) (b : Block) : Words8 :=
  sha256Rounds n 0 (parseBlock .be b) h

/-- Feed-forward: element-wise `add32` (40_compress_and_accumulator.md R83). -/
def addWords8 (x y : Words8) : Words8 :=
  ⟨x.w0 + y.w0, x.w1 + y.w1, x.w2 + y.w2, x.w3 + y.w3,
   x.w4 + y.w4, x.w5 + y.w5, x.w6 + y.w6, x.w7 + y.w7⟩

/-- `compress_sha256s(H, B)` (R96). -/
def compressSha256s (h : Words8) (b : Block) : Words8 :=
  addWords8 h (sha256Working rounds h b)

end Sys2Proof.Machine
end

