-- ==== Sys2Proof/Machine/Compress.lean ====
section
/-! DEFINITION. The compression primitive of either instance and the micro-operation `COMPRESS` of the state accumulator
(40_compress_and_accumulator.md R80, R82). -/

namespace Sys2Proof.Machine

/-- `compress` (R80; 00_scope.md R9): a pure function of the state words and one block. -/
def compress (h : HashState) (b : Block) : HashState :=
  match h with
  | .sha256s w => .sha256s (compressSha256s w b)
  | .md5s w => .md5s (compressMd5s w b)

/-- The micro-operation `COMPRESS(B)` (R82): `words` and nothing else. -/
def compressBlock (b : Block) (s : State) : State :=
  { s with words := compress s.words b }

/-- `COMPRESS(MemRead(0, 64))`. -/
def compressStorage (s : State) : State := compressBlock (storageBlock s.storage) s

end Sys2Proof.Machine
end

