-- ==== Sys2Proof/Machine/Digest.lean ====
section
/-! DEFINITION. The command `DIGEST`, the whole behaviour of the Merkle–Damgård finalizer
(44_digest_finalizer.md R135 to R144). The cursor `c` (0 to 64) is a local of the command. -/

namespace Sys2Proof.Machine

/-- Step 1: the marker at offset `fill` (R137). -/
def writeMarker (s : State) : State :=
  { s with storage := memWrite s.storage s.fill.toNat [markerByte] }

/-- `0x00` to the offsets from `c` up to but not including `top` (R138, R139). -/
def zeroFill (c top : Nat) (s : State) : State :=
  { s with storage := memWrite s.storage c (zeroBytes (top - c)) }

/-- Step 2: with no room for the footer after the cursor `c`, the buffer is zero-filled and compressed
(R138). -/
def extraBlock (c : Nat) (s : State) : State :=
  if blockSize - c < footerBytes then compressStorage (zeroFill c blockSize s) else s

/-- The cursor after step 2 (R138). -/
def cursorAfter (c : Nat) : Nat :=
  if blockSize - c < footerBytes then 0 else c

/-- Step 4, the footer: the bit count modulo 2^64 in the instance's byte order, at offsets 56 to 63 (R140,
R141). -/
def writeFooter (s : State) : State :=
  { s with
    storage := memWrite s.storage (blockSize - footerBytes)
      (enc64 (byteOrder s.alg) (shl64x3 s.totalLength)) }

/-- Steps 2 to 4, from the cursor `c`: padding, footer, and the last compression (R138 to R140). -/
def padFrom (c : Nat) (s : State) : State :=
  compressStorage
    (writeFooter (zeroFill (cursorAfter c) (blockSize - footerBytes) (extraBlock c s)))

/-- Steps 1 to 4: marker, padding, footer, one or two compressions (R135, R145). -/
def finalizeMessage (s : State) : State :=
  padFrom (s.fill.toNat + 1) (writeMarker s)

/-- `DIGEST` (R135): the fault check comes first (R136); the digest is formed before the session is initialised
again (R142, R144). -/
def execDigest (s : State) : Host.Outcome State Fault Refusal :=
  if s.ready then
    .next (respondOk (serialise (finalizeMessage s).words) (initSession (finalizeMessage s)))
  else .next (raiseFault .notReady s)

end Sys2Proof.Machine
end

