-- ==== Sys2Proof/Machine/Session.lean ====
section
/-! DEFINITION. The commands of the top level: `INIT` (45_session_commands.md R150) and `RDSTATUS` (R152). -/

namespace Sys2Proof.Machine

/-- `INIT` (R150): accepted in every state, no fault, no result bytes. -/
def execInit (s : State) : Host.Outcome State Fault Refusal :=
  .next (respondOk [] (initSession s))

/-- `RDSTATUS` (R152): returns the one byte `STATUS`, writes nothing, accepted in every state. -/
def execRdstatus (s : State) : Host.Outcome State Fault Refusal :=
  .next (respondOk [statusByte s.fault s.ready] s)

end Sys2Proof.Machine
end

