-- ==== Sys2Proof/Machine/Update.lean ====
section
/-! DEFINITION. The command `UPDATE`, the whole behaviour of the block buffer manager
(43_update_buffer_manager.md R120 to R125). -/

namespace Sys2Proof.Machine

/-- Step 1: `total_length <- add64(total_length, LEN)` (R121, R128). -/
def countBytes (n : Nat) (s : State) : State :=
  { s with totalLength := s.totalLength + BitVec.ofNat 64 n }

/-- Step 2, fewer bytes than the block still lacks: append them and advance `fill` (R123). -/
def appendBytes (data : List Byte) (s : State) : State :=
  { s with
    storage := memWrite s.storage s.fill.toNat data
    fill := s.fill + BitVec.ofNat 6 data.length }

/-- Step 2, the bytes that complete the block: append them, compress the buffer, `fill <- 0` (R123). -/
def completeBlock (data : List Byte) (s : State) : State :=
  { compressStorage { s with storage := memWrite s.storage s.fill.toNat data } with fill := 0 }

/-- Step 3: `k` whole blocks straight from the payload, in payload order (R124). -/
def compressEach : Nat → List Byte → State → State
  | 0, _, s => s
  | k + 1, data, s => compressEach k (data.drop blockSize) (compressBlock (Block.ofList data) s)

/-- Step 4: the tail goes to offset 0 and `fill` becomes its length (R125). -/
def storeTail (tail : List Byte) (s : State) : State :=
  { s with
    storage := memWrite s.storage 0 tail
    fill := BitVec.ofNat 6 tail.length }

/-- Steps 3 and 4 on the payload bytes that remain: the loop `while LEN - p >= 64` runs once for each whole
block among them (R124, R125; log entry 15). -/
def absorbWhole (data : List Byte) (s : State) : State :=
  storeTail (data.drop (blockSize * (data.length / blockSize)))
    (compressEach (data.length / blockSize) data s)

/-- `left`, the bytes the partial block still lacks (R123). -/
def bytesLeft (s : State) : Nat := blockSize - s.fill.toNat

/-- Steps 2 to 4, after the bytes were counted (R120). -/
def absorbCounted (data : List Byte) (s : State) : State :=
  if 0 < s.fill.toNat then
    if data.length < bytesLeft s then appendBytes data s
    else absorbWhole (data.drop (bytesLeft s)) (completeBlock (data.take (bytesLeft s)) s)
  else absorbWhole data s

/-- The effect of a successful `UPDATE` on the session (R120). -/
def absorb (data : List Byte) (s : State) : State :=
  absorbCounted data (countBytes data.length s)

/-- `UPDATE` (R120): the fault check comes first (R122), no result bytes. -/
def execUpdate (data : List Byte) (s : State) : Host.Outcome State Fault Refusal :=
  if s.ready then .next (respondOk [] (absorb data s))
  else .next (raiseFault .notReady s)

end Sys2Proof.Machine
end

