-- ==== Sys2Proof/Machine/Fetch.lean ====
section
/-! DEFINITION. Taking the next transaction from what the host presents (30_encoding.md R60; 60_exceptions.md R171:
a command word is decoded first). The engine has no program counter and fetches no instructions
(10_state.md R33): the next transaction is the front of `hostIn`. -/

namespace Sys2Proof.Machine

/-- What the front of the host's input asks the step to do. -/
inductive Fetched where
  /-- Run this instruction in this state, its words and payload taken from the input. -/
  | run (i : Instr) (s : State)
  /-- No instruction runs; the step ends so. -/
  | settled (o : Host.Outcome State Fault Refusal)
  deriving Repr

/-- The state once the host's input has been consumed up to `rest`. -/
def consumeTo (rest : List HostItem) (s : State) : State := { s with hostIn := rest }

/-- One reading of the host's input: a command to run; `ILLEGAL_CMD` whatever `ready` is (60_exceptions.md R166,
R171); hardware reset (70_reset_and_hazards.md R185, R186); an idle engine, which holds its state (60_exceptions.md R184);
or one of the three host errors and waits that have no step (R132, R190, R191). -/
def fetch (s : State) : Fetched :=
  match decode s.hostIn with
  | .instr i rest => .run i (consumeTo rest s)
  | .illegal _ rest => .settled (.next (raiseFault .illegalCmd (consumeTo rest s)))
  | .reset rest => .settled (.next (hardwareReset (consumeTo rest s)))
  | .idle => .settled (.next s)
  | .payloadAwaited => .settled (.fault .payloadAwaited)
  | .overlappingCommand => .settled (.refused .overlappingCommand)
  | .surplusPayload => .settled (.refused .surplusPayload)

/-- The transaction of a table word put in front of what the host presents. -/
def presentWord (s : State) (nbits w : Nat) : State :=
  { s with hostIn := tableItems nbits w ++ s.hostIn }

end Sys2Proof.Machine
end

