-- ==== Sys2Proof/Machine/Assembler.lean ====
section
/-! DEFINITION. The text form of command sequences and its assembler (30_encoding.md R71, R72). A line is a list of
characters; what the spec leaves open about the text (blanks, the case of hex digits, a `;` inside quotes, a
count of bytes beyond `LEN`) is in log entry 16. -/

namespace Sys2Proof.Machine

/-- One line of the text form (R71, R72). -/
inductive AsmLine where
  /-- Nothing, or only a comment. -/
  | empty
  /-- `init`, `update <bytes>`, `digest` or `rdstatus`. -/
  | command (i : Instr)
  /-- A pseudo-command. -/
  | pseudo (p : Pseudo)
  /-- `.cmd 0x<18 hex digits>`: a raw command word. -/
  | raw (w : CmdWord)
  deriving DecidableEq, Repr

/-- What a line makes the host present (R71, R72). DESIGN CHOICE (log entry 16): R71 does not say what the assembler
does with `<bytes>` of 2^64 bytes or more, which no `LEN` can count; the line is taken, and the word carries the
count modulo 2^64 in front of all the bytes. -/
def AsmLine.assemble : AsmLine → List HostItem
  | .empty => []
  | .command i => encode i
  | .pseudo p => p.expand.flatMap encode
  | .raw w => [.cmd w]

/-- The double quote. -/
def dquote : Char := Char.ofNat 34

def isBlank (c : Char) : Bool := c == ' ' || c == '\t'

def skipBlanks : List Char → List Char
  | [] => []
  | c :: r => if isBlank c then skipBlanks r else c :: r

/-- The line up to a `;` that stands outside quotes (R71: `;` starts a comment). -/
def uncomment : Bool → List Char → List Char
  | _, [] => []
  | quoted, c :: r =>
    if c == ';' && !quoted then [] else c :: uncomment (if c == dquote then !quoted else quoted) r

/-- The line with its trailing blanks removed. -/
def trimEnd (l : List Char) : List Char := (skipBlanks l.reverse).reverse

/-- Mnemonics are case-insensitive (R71). -/
def lower (c : Char) : Char :=
  if 65 ≤ c.toNat ∧ c.toNat ≤ 90 then Char.ofNat (c.toNat + 32) else c

/-- The characters up to the first blank, and the rest. -/
def firstWord : List Char → List Char × List Char
  | [] => ([], [])
  | c :: r => if isBlank c then ([], r) else (c :: (firstWord r).1, (firstWord r).2)

def hexDigit (c : Char) : Option Nat :=
  if 48 ≤ c.toNat ∧ c.toNat ≤ 57 then some (c.toNat - 48)
  else if 97 ≤ c.toNat ∧ c.toNat ≤ 102 then some (c.toNat - 87)
  else if 65 ≤ c.toNat ∧ c.toNat ≤ 70 then some (c.toNat - 55)
  else none

/-- A byte written as two hex digits. -/
def hexByte (hi lo : Char) : Option Byte :=
  match hexDigit hi, hexDigit lo with
  | some h, some l => some (BitVec.ofNat 8 (16 * h + l))
  | _, _ => none

/-- The value of a run of hex digits, most significant first. -/
def hexNumber : Nat → List Char → Option Nat
  | acc, [] => some acc
  | acc, c :: r =>
    match hexDigit c with
    | some d => hexNumber (16 * acc + d) r
    | none => none

/-- The inside of `x"616263"` up to its closing quote (R71). -/
def hexString : List Char → Option (List Byte × List Char)
  | [] => none
  | [c] => if c == dquote then some ([], []) else none
  | hi :: lo :: r =>
    if hi == dquote then some ([], lo :: r)
    else match hexByte hi lo, hexString r with
      | some b, some (bs, rest) => some (b :: bs, rest)
      | _, _ => none

/-- The inside of `"abc"` up to its closing quote: each character is its ASCII code (R71). -/
def asciiString : List Char → Option (List Byte × List Char)
  | [] => none
  | c :: r =>
    if c == dquote then some ([], r)
    else if c.toNat < 128 then
      match asciiString r with
      | some (bs, rest) => some (BitVec.ofNat 8 c.toNat :: bs, rest)
      | none => none
    else none

/-- A decimal number and what follows it; the flag says whether a digit was seen. -/
def decimal : Bool → Nat → List Char → Option (Nat × List Char)
  | seen, acc, [] => if seen then some (acc, []) else none
  | seen, acc, c :: r =>
    if 48 ≤ c.toNat ∧ c.toNat ≤ 57 then decimal true (10 * acc + (c.toNat - 48)) r
    else if seen then some (acc, c :: r) else none

/-- The inside of `rep(61, 55)` (R71). -/
def repeated (l : List Char) : Option (List Byte × List Char) :=
  match skipBlanks l with
  | hi :: lo :: r =>
    match hexByte hi lo, skipBlanks r with
    | some b, ',' :: r =>
      match decimal false 0 (skipBlanks r) with
      | some (n, r) =>
        match skipBlanks r with
        | ')' :: rest => some (List.replicate n b, rest)
        | _ => none
      | none => none
    | _, _ => none
  | _ => none

/-- One item of `<bytes>` (R71). -/
def bytesItem : List Char → Option (List Byte × List Char)
  | 'r' :: 'e' :: 'p' :: '(' :: r => repeated r
  | c :: r =>
    if c == dquote then asciiString r
    else match c, r with
      | 'x', q :: r => if q == dquote then hexString r else none
      | _, _ => none
  | [] => none

/-- `<bytes>`: items joined by `++` (R71); the first argument bounds their number. -/
def bytesFrom : Nat → List Char → Option (List Byte)
  | 0, _ => none
  | fuel + 1, l =>
    match bytesItem (skipBlanks l) with
    | some (bs, rest) =>
      match skipBlanks rest with
      | [] => some bs
      | '+' :: '+' :: r =>
        match bytesFrom fuel r with
        | some more => some (bs ++ more)
        | none => none
      | _ => none
    | none => none

/-- The operand `<bytes>`: every item has at least one character. -/
def parseBytes (l : List Char) : Option (List Byte) := bytesFrom (l.length + 1) l

/-- The operand `<byte>` of `absorb`: two hex digits (R72). -/
def parseByte (l : List Char) : Option Byte :=
  match skipBlanks l with
  | [hi, lo] => hexByte hi lo
  | _ => none

/-- The operand of `.cmd`: `0x` and 18 hex digits (R71). -/
def parseRaw (l : List Char) : Option CmdWord :=
  match skipBlanks l with
  | '0' :: 'x' :: ds =>
    if ds.length = 18 then (hexNumber 0 ds).map (BitVec.ofNat 72) else none
  | _ => none

/-- A mnemonic in lower case, and its operand text (R71, R72). -/
def parseWords (mnemonic operand : List Char) : Option AsmLine :=
  if mnemonic = [] then some .empty
  else if mnemonic = ['i', 'n', 'i', 't'] then
    if skipBlanks operand = [] then some (.command .init) else none
  else if mnemonic = ['d', 'i', 'g', 'e', 's', 't'] then
    if skipBlanks operand = [] then some (.command .digest) else none
  else if mnemonic = ['r', 'd', 's', 't', 'a', 't', 'u', 's'] then
    if skipBlanks operand = [] then some (.command .rdstatus) else none
  else if mnemonic = ['u', 'p', 'd', 'a', 't', 'e'] then
    (parseBytes operand).map fun bs => .command (.update bs)
  else if mnemonic = ['h', 'a', 's', 'h'] then
    (parseBytes operand).map fun bs => .pseudo (.hash bs)
  else if mnemonic = ['a', 'b', 's', 'o', 'r', 'b'] then
    (parseByte operand).map fun b => .pseudo (.absorb b)
  else if mnemonic = ['u', 'p', 'd', 'a', 't', 'e', '.', 'e', 'a', 'c', 'h'] then
    (parseBytes operand).map fun bs => .pseudo (.updateEach bs)
  else if mnemonic = ['.', 'c', 'm', 'd'] then (parseRaw operand).map .raw
  else none

/-- One line of text; `none` where it is not of the text form. -/
def parseLine (l : List Char) : Option AsmLine :=
  let line := skipBlanks (trimEnd (uncomment false l))
  parseWords ((firstWord line).1.map lower) (firstWord line).2

/-- A program, one command per line (R71): what the host presents, in order. -/
def assembleProgram : List (List Char) → Option (List HostItem)
  | [] => some []
  | l :: ls =>
    match parseLine l, assembleProgram ls with
    | some a, some rest => some (a.assemble ++ rest)
    | _, _ => none

end Sys2Proof.Machine
end

