-- ==== Sys2Proof/Safety.lean ====
section
/-! DEFINITION. The terms claims are made in: what a run of commands is, which states are sound, when two states cannot be told apart, and what
the digest of a message is, written from the spec's whole-machine rules and not from the meanings. -/

namespace Sys2Proof.Machine

/-! ### Runs of commands -/

/-- The commands one after another, each to completion (20_memory.md R51). -/
def execAll : List Instr → State → Host.Outcome State Fault Refusal
  | [], s => .next s
  | i :: is, s =>
    match exec i s with
    | .next t => execAll is t
    | .fault r => .fault r
    | .refused r => .refused r

/-! ### Sound states -/

/-- What holds in every state: the buffer is in its canonical form, and `fault = 3` never occurs (10_state.md R26). -/
def State.Inv (s : State) : Prop := Memory.wf s.storage = true ∧ s.fault ≠ 3

/-- `fill = total_length mod 64` in the `Ready` state (10_state.md R31). -/
def State.CountInv (s : State) : Prop :=
  s.ready = true → s.fill.toNat = s.totalLength.toNat % 64

/-- `storage[0 .. fill)`, the significant bytes (10_state.md R32). -/
def State.significant (s : State) : List Byte := memRead s.storage 0 s.fill.toNat

/-- From `s` to `t` the bytes `v` were written at offset `a` of the buffer: the run fits in the 64 bytes
(20_memory.md R42), all of it is there afterwards, and every other byte reads as before. -/
def WritesInside (s t : State) (a : Nat) (v : List Byte) : Prop :=
  a + v.length ≤ 64 ∧
    ∀ x, Memory.readByte t.storage x =
      if a ≤ x ∧ x < a + v.length then v.getD (x - a) 0 else Memory.readByte s.storage x

/-- The equality chunking invariance speaks of: `words`, `fill`, `total_length` and `storage[0 .. fill)`
(43_update_buffer_manager.md R127). -/
def SameSession (s t : State) : Prop :=
  s.words = t.words ∧ s.fill = t.fill ∧ s.totalLength = t.totalLength ∧ s.significant = t.significant

/-- Observational equivalence (10_state.md R38): equal `ready` and `fault`, the same instance, the same two
ends of the interface, and in the `Ready` state the same session but for the stale bytes. -/
def ObsEq (s t : State) : Prop :=
  s.alg = t.alg ∧ s.ready = t.ready ∧ s.fault = t.fault ∧ s.hostIn = t.hostIn ∧ s.hostOut = t.hostOut ∧
    (s.ready = true → SameSession s t)

/-- Two outcomes that cannot be told apart: next states that are observationally equivalent, or one and
the same stop. -/
def ObsEqOutcome : Host.Outcome State Fault Refusal → Host.Outcome State Fault Refusal → Prop
  | .next s, .next t => ObsEq s t
  | .fault q, .fault r => q = r
  | .refused q, .refused r => q = r
  | _, _ => False

/-! ### The digest of a message -/

/-- The whole 64-byte blocks of a byte sequence, in order. -/
def blocksOf (x : List Byte) : List Block :=
  (List.range (x.length / 64)).map fun k => Block.ofFn fun i => x.getD (64 * k + i) 0

/-- The Merkle–Damgård iteration (40_compress_and_accumulator.md R87). -/
def compressAll (h : HashState) (bs : List Block) : HashState := bs.foldl compress h

/-- The footer of a message of `n` bytes: its bit count modulo 2^64 (44_digest_finalizer.md R141, R146). -/
def lengthFooter (alg : Alg) (n : Nat) : List Byte := enc64 (byteOrder alg) (BitVec.ofNat 64 (8 * n))

/-- `k = (55 - n) mod 64`, the number of zero bytes between marker and footer (R146). -/
def padZeros (n : Nat) : Nat := (119 - n % 64) % 64

/-- `pad(M)` (R146). -/
def padMessage (alg : Alg) (m : List Byte) : List Byte :=
  m ++ [0x80] ++ List.replicate (padZeros m.length) 0 ++ lengthFooter alg m.length

/-- What a session that accepted the message `m` computes (R146). -/
def messageDigest (alg : Alg) (m : List Byte) : List Byte :=
  serialise (compressAll (iv alg) (blocksOf (padMessage alg m)))

/-- The empty-message digests the spec quotes, byte by byte (44_digest_finalizer.md R147). -/
def publishedEmptyDigest : Alg → List Byte
  | .sha256s =>
    [0xe3, 0xb0, 0xc4, 0x42, 0x98, 0xfc, 0x1c, 0x14, 0x9a, 0xfb, 0xf4, 0xc8, 0x99, 0x6f, 0xb9, 0x24,
      0x27, 0xae, 0x41, 0xe4, 0x64, 0x9b, 0x93, 0x4c, 0xa4, 0x95, 0x99, 0x1b, 0x78, 0x52, 0xb8, 0x55]
  | .md5s =>
    [0xd4, 0x1d, 0x8c, 0xd9, 0x8f, 0x00, 0xb2, 0x04, 0xe9, 0x80, 0x09, 0x98, 0xec, 0xf8, 0x42, 0x7e]

/-- The buffer invariant (10_state.md R30): the state of a session that has accepted the message `m` since the last
`INIT`. -/
def State.Accepted (s : State) (m : List Byte) : Prop :=
  s.ready = true ∧
    s.words = compressAll (iv s.alg) (blocksOf m) ∧
    s.fill.toNat = m.length % 64 ∧
    s.totalLength.toNat = m.length % 2 ^ 64 ∧
    s.significant = m.drop (64 * (m.length / 64))

/-! ### The unrolled SHA-256-style schedule -/

/-- `n` more words of the recurrence `W_i = s1(W_{i-2}) + W_{i-7} + s0(W_{i-15}) + W_{i-16}`, after the words
`w` (41_compress_sha256.md R97). -/
def sha256Extend : Nat → List Word → List Word
  | 0, w => w
  | n + 1, w =>
    sha256Extend n (w ++ [sha256s1 (w.getD (w.length - 2) 0) + w.getD (w.length - 7) 0
      + sha256s0 (w.getD (w.length - 15) 0) + w.getD (w.length - 16) 0])

/-- The schedule `W_0 .. W_63` of a block (R97). -/
def sha256Schedule (b : Block) : List Word := sha256Extend 48 (parseBlock .be b)

/-- The working registers after the 64 rounds, each round with its schedule word (R94, R97). -/
def sha256Unrolled (h : Words8) (b : Block) : Words8 :=
  (List.range 64).foldl (fun r i => sha256Round i ((sha256Schedule b).getD i 0) r) h

end Sys2Proof.Machine
end

