-- ==== Sys2Proof/Certificates/Slice0/Obligations.lean ====
section
/-! DEFINITION. The statements about the engine, from the numbered rules of spec/. Every one holds for both
instances: the instance is the shape of `words` (log entry 1). -/

open Sys2Proof Sys2Proof.Machine

/-! ### Encoding -/

/-- Every transaction a host can present for a well-formed command decodes to that command, payload and
all, whatever follows it (30_encoding.md, sections 2 and 3). -/
def Obligations.DecodeOfEncodeGivesTheInstruction : Prop :=
  ∀ (i : Instr) (rest : List HostItem), i.wellFormed = true →
    decode (encode i ++ rest) = .instr i rest

/-- Where the host's input decodes to a command, it begins with exactly that command's encoding, and the
command is well formed: no input but the encoding has that reading. -/
def Obligations.DecodedInputIsTheEncoding : Prop :=
  ∀ (items : List HostItem) (i : Instr) (rest : List HostItem), decode items = .instr i rest →
    items = encode i ++ rest ∧ i.wellFormed = true

/-- The decoder against the match and mask of the opcode table (30_encoding.md, section 3, "As match and mask over the
72 bits"), and the operand `LEN` unchanged. -/
def Obligations.CommandWordsMatchTheOpcodeTable : Prop :=
  ∀ c : CmdWord,
    (decodeWord c = .init ↔ c &&& 0xffffffffffffffffff = 0x000000000000000000) ∧
    ((∃ len, decodeWord c = .update len) ↔ c &&& 0xff0000000000000000 = 0x010000000000000000) ∧
    (decodeWord c = .digest ↔ c &&& 0xffffffffffffffffff = 0x020000000000000000) ∧
    (decodeWord c = .rdstatus ↔ c &&& 0xffffffffffffffffff = 0x030000000000000000) ∧
    (∀ len, decodeWord c = .update len → len = c.setWidth 64)

/-- Some command words of 95_test_vectors.md V67, written out bit by bit from R61 and R62. -/
def Obligations.SampleCommandWordsDecode : Prop :=
  decodeWord 0x000000000000000000 = .init ∧
    decodeWord 0x010000000000000003 = .update 3 ∧
    decodeWord 0x018000000000000000 = .update 0x8000000000000000 ∧
    decodeWord 0x020000000000000000 = .digest ∧
    decodeWord 0x030000000000000000 = .rdstatus ∧
    decodeWord 0x000000000000000001 = .illegal .lenNotZero ∧
    decodeWord 0x040000000000000000 = .illegal .reservedOp ∧
    decodeTableWord 72 0x020000000000000000 = some .digest

/-! ### The step -/

/-- A step runs the instruction the host's input decodes to, with its words and payload taken from the
input. -/
def Obligations.StepRunsTheDecodedInstruction : Prop :=
  ∀ (s : State) (i : Instr) (rest : List HostItem), decode s.hostIn = .instr i rest →
    step s = exec i { s with hostIn := rest }

/-- An illegal command word raises `ILLEGAL_CMD` in either session state: no state but `fault` changes, no
payload is consumed, no result bytes are returned; and every other word is one of the four commands (R64,
R166). -/
def Obligations.IllegalWordRaisesIllegalCmd : Prop :=
  ∀ (s : State) (c : CmdWord) (rest : List HostItem),
    (s.hostIn = .cmd c :: rest →
      (4 ≤ (c.extractLsb' 64 8).toNat ∨
        ((c.extractLsb' 64 8 = 0x00 ∨ c.extractLsb' 64 8 = 0x02 ∨ c.extractLsb' 64 8 = 0x03) ∧
          c.extractLsb' 0 64 ≠ 0)) →
      step s = .next { s with
        hostIn := rest
        fault := if s.fault = 0 then 2 else s.fault
        hostOut := s.hostOut ++ [⟨0x02, []⟩] }) ∧
    (¬ (4 ≤ (c.extractLsb' 64 8).toNat ∨
        ((c.extractLsb' 64 8 = 0x00 ∨ c.extractLsb' 64 8 = 0x02 ∨ c.extractLsb' 64 8 = 0x03) ∧
          c.extractLsb' 0 64 ≠ 0)) →
      decodeWord c = .init ∨ (∃ len, decodeWord c = .update len) ∨ decodeWord c = .digest ∨
        decodeWord c = .rdstatus)

/-- `NOT_READY`: an `UPDATE` or a `DIGEST` while `ready = 0` changes nothing but `fault`, and a refused
`UPDATE` still takes its payload from the host; `INIT` and `RDSTATUS` never raise it (R122, R136, R167). -/
def Obligations.NotReadyRefusesUpdateAndDigest : Prop :=
  ∀ (s : State) (rest : List HostItem),
    (∀ d : List Byte, d.length < 2 ^ 64 → s.ready = false →
      s.hostIn = encode (.update d) ++ rest →
      step s = .next { s with
        hostIn := rest
        fault := if s.fault = 0 then 1 else s.fault
        hostOut := s.hostOut ++ [⟨0x01, []⟩] }) ∧
    (s.ready = false → s.hostIn = encode .digest ++ rest →
      step s = .next { s with
        hostIn := rest
        fault := if s.fault = 0 then 1 else s.fault
        hostOut := s.hostOut ++ [⟨0x01, []⟩] }) ∧
    (s.hostIn = encode .init ++ rest →
      ∃ t, step s = .next t ∧ t.hostOut = s.hostOut ++ [⟨0x00, []⟩] ∧ t.fault = s.fault) ∧
    (s.hostIn = encode .rdstatus ++ rest →
      ∃ t b, step s = .next t ∧ t.hostOut = s.hostOut ++ [⟨0x00, [b]⟩] ∧ t.fault = s.fault)

/-- What the step does where no command can run. Nothing presented: the engine is idle and holds its state
(log entry 5). Fewer payload bytes than `LEN`: no step until they arrive (log entry 6). A command word inside a payload,
or payload with no `UPDATE` outstanding: no meaning (log entry 7). The form of each outcome is the model's
choice. -/
def Obligations.NoCommandRunsWithoutItsWholeTransaction : Prop :=
  ∀ s : State,
    (s.hostIn = [] → step s = .next s) ∧
    (∀ (len : Dword) (d : List Byte), d.length < len.toNat →
      s.hostIn = .cmd ((0x01 : Byte) ++ len) :: d.map .data →
      step s = .fault .payloadAwaited) ∧
    (∀ (len : Dword) (d : List Byte) (c : CmdWord) (rest : List HostItem), d.length < len.toNat →
      s.hostIn = .cmd ((0x01 : Byte) ++ len) :: (d.map .data ++ .cmd c :: rest) →
      step s = .refused .overlappingCommand) ∧
    (∀ (b : Byte) (rest : List HostItem), s.hostIn = .data b :: rest →
      step s = .refused .surplusPayload)

/-- Hardware reset clears `ready` and `fault`, so that `STATUS` reads `0x00`, and returns nothing to the host; what
it leaves in the other registers is unspecified and not claimed. No step without it clears `ready` or `fault` (R185). -/
def Obligations.HardwareResetClearsReadyAndFault : Prop :=
  (∀ (s : State) (rest : List HostItem), s.hostIn = .reset :: rest →
    ∃ t, step s = .next t ∧ t.ready = false ∧ t.fault = 0 ∧ statusByte t.fault t.ready = 0x00 ∧
      t.hostIn = rest ∧ t.hostOut = s.hostOut ∧ t.alg = s.alg) ∧
  (∀ s t : State, step s = .next t → (∀ rest, decode s.hostIn ≠ .reset rest) →
    (s.ready = true → t.ready = true) ∧ (s.fault ≠ 0 → t.fault ≠ 0))

/-- A hardware reset that arrives before an `UPDATE` has its payload abandons that command: no response, the bytes
already presented are dropped, and the outcome is that of the reset alone (70_reset_and_hazards.md, section 1; log entry
8). -/
def Obligations.ResetAbandonsAnUnfinishedUpdate : Prop :=
  ∀ (s : State) (len : Dword) (d : List Byte) (rest : List HostItem), d.length < len.toNat →
    s.hostIn = .cmd ((0x01 : Byte) ++ len) :: (d.map .data ++ .reset :: rest) →
    step s = step { s with hostIn := .reset :: rest }

/-! ### `INIT` and `RDSTATUS` -/

/-- `INIT` completes in every state with the values of R36, whether it is the command or the one that ends a
successful `DIGEST`, and leaves `fault` and the host's input alone. -/
def Obligations.InitSetsTheSession : Prop :=
  ∀ (s : State) (i : Instr), (i = .init ∨ (i = .digest ∧ s.ready = true)) → ∃ t, exec i s = .next t ∧
    t.words = (match s.alg with
      | .sha256s => .sha256s ⟨0x6a09e667, 0xbb67ae85, 0x3c6ef372, 0xa54ff53a,
          0x510e527f, 0x9b05688c, 0x1f83d9ab, 0x5be0cd19⟩
      | .md5s => .md5s ⟨0x67452301, 0xefcdab89, 0x98badcfe, 0x10325476⟩) ∧
    (∀ a < 64, Memory.readByte t.storage a = 0x00) ∧
    t.fill = 0 ∧ t.totalLength = 0 ∧ t.ready = true ∧ t.fault = s.fault ∧ t.hostIn = s.hostIn ∧
    (i = .init → t.hostOut = s.hostOut ++ [⟨0x00, []⟩])

/-- `RDSTATUS` completes in every state, returns the one byte `STATUS` and writes nothing: bit 0 `ready`, bits 2:1 `fault`,
bits 7:3 zero, one of `0x00` to `0x05` where `fault` is not 3; its word and the examples of R152. -/
def Obligations.RdstatusReturnsStatus : Prop :=
  (∀ s : State, ∃ b : Byte,
    exec .rdstatus s = .next { s with hostOut := s.hostOut ++ [⟨0x00, [b]⟩] } ∧
    b.getLsbD 0 = s.ready ∧ b.extractLsb' 1 2 = s.fault ∧ b.extractLsb' 3 5 = 0 ∧
    (s.fault ≠ 3 → b.toNat ≤ 5)) ∧
  encode .rdstatus = [.cmd 0x030000000000000000] ∧
  (∀ (alg : Alg) (data : List Byte), ∃ t u v,
    execAll [.rdstatus] (State.resetFor alg) = .next t ∧ t.hostOut.getLast? = some ⟨0x00, [0x00]⟩ ∧
    execAll [.init, .rdstatus] (State.resetFor alg) = .next u ∧
    u.hostOut.getLast? = some ⟨0x00, [0x01]⟩ ∧
    execAll [.update data, .init, .rdstatus] (State.resetFor alg) = .next v ∧
    v.hostOut.getLast? = some ⟨0x00, [0x03]⟩)

/-! ### `UPDATE` -/

/-- `UPDATE` completes in every `Ready` state, with the closed form of its effect
(43_update_buffer_manager.md, "Closed form of the effect"): the counts modulo 2^64 and 64, the blocks of the buffered bytes
followed by the payload compressed in order, the last bytes left in the buffer; `ready`, `fault` and the host's
input are unchanged. -/
def Obligations.UpdateHasItsClosedForm : Prop :=
  ∀ (s : State) (data : List Byte), s.ready = true →
    ∃ t, exec (.update data) s = .next t ∧
      t.totalLength.toNat = (s.totalLength.toNat + data.length) % 2 ^ 64 ∧
      t.fill.toNat = (s.fill.toNat + data.length) % 64 ∧
      t.words = compressAll s.words (blocksOf (s.significant ++ data)) ∧
      t.significant = (s.significant ++ data).drop (64 * ((s.fill.toNat + data.length) / 64)) ∧
      t.ready = true ∧ t.fault = s.fault ∧ t.hostIn = s.hostIn ∧
      t.hostOut = s.hostOut ++ [⟨0x00, []⟩]

/-- Every byte of the buffer after an `UPDATE`, the stale ones among them, as the literal pseudocode leaves
it (43_update_buffer_manager.md, "Stale bytes left by `UPDATE` (literal reading)"), and no cell outside the 64 bytes is
touched. It is the model's frame: that the stale bytes are so is its choice among what conforms, and nothing about the
engine rests on it (log entry 9). -/
def Obligations.UpdateLeavesTheseBytes : Prop :=
  ∀ (s : State) (data : List Byte), s.ready = true →
    ∃ t, exec (.update data) s = .next t ∧
      (∀ a < 64, Memory.readByte t.storage a =
        if s.fill.toNat + data.length < 64 then
          if s.fill.toNat ≤ a ∧ a < s.fill.toNat + data.length then data.getD (a - s.fill.toNat) 0
          else Memory.readByte s.storage a
        else if a < (s.fill.toNat + data.length) % 64 then
          data.getD (data.length - (s.fill.toNat + data.length) % 64 + a) 0
        else if s.fill.toNat = 0 ∨ a < s.fill.toNat then Memory.readByte s.storage a
        else data.getD (a - s.fill.toNat) 0) ∧
      ∀ a, 64 ≤ a → Memory.readByte t.storage a = Memory.readByte s.storage a

/-- `UPDATE` with an empty payload changes nothing: it responds `OK` and leaves every register and every byte as it
was (43_update_buffer_manager.md, "Empty payload"). That the bytes from `fill` up, the stale ones, stay is the model's
choice (log entry 9). -/
def Obligations.EmptyUpdateChangesNothing : Prop :=
  ∀ s : State, s.ready = true →
    ∃ t, exec (.update []) s = .next t ∧
      t.words = s.words ∧ t.fill = s.fill ∧ t.totalLength = s.totalLength ∧
      (∀ a, Memory.readByte t.storage a = Memory.readByte s.storage a) ∧
      t.ready = true ∧ t.fault = s.fault ∧ t.hostIn = s.hostIn ∧
      t.hostOut = s.hostOut ++ [⟨0x00, []⟩]

/-! ### `DIGEST` -/

/-- `DIGEST` completes in every `Ready` state and returns the words after one final block (`fill <= 55`) or two,
made of the significant bytes, the marker, zeros and the bit count (44_digest_finalizer.md, "One block or
two"). -/
def Obligations.DigestCompressesTheFinalBlocks : Prop :=
  ∀ s : State, s.ready = true →
    ∃ t, exec .digest s = .next t ∧
      t.hostOut = s.hostOut ++ [⟨0x00, serialise (compressAll s.words
        (if s.fill.toNat ≤ 55 then
          blocksOf (s.significant ++ [0x80] ++ List.replicate (55 - s.fill.toNat) 0 ++
            lengthFooter s.alg s.totalLength.toNat)
        else
          blocksOf (s.significant ++ [0x80] ++ List.replicate (63 - s.fill.toNat) 0) ++
            blocksOf (List.replicate 56 0 ++ lengthFooter s.alg s.totalLength.toNat)))⟩]

/-- After a successful `DIGEST` the engine is in the state `INIT` leaves, but for the reply; `fault` keeps its value, and
the digest was formed from the words before they were initialised (R144). -/
def Obligations.DigestReinitialisesTheSession : Prop :=
  ∀ s : State, s.ready = true →
    ∃ t u, exec .digest s = .next t ∧ exec .init s = .next u ∧
      t.words = u.words ∧ t.storage = u.storage ∧ t.fill = u.fill ∧
      t.totalLength = u.totalLength ∧ t.ready = u.ready ∧ t.fault = s.fault ∧ t.hostIn = s.hostIn ∧
      t.words = iv s.alg ∧ (∀ a < 64, Memory.readByte t.storage a = 0x00) ∧ t.fill = 0 ∧
      t.totalLength = 0 ∧ t.ready = true ∧
      t.hostOut = s.hostOut ++ [⟨0x00, serialise (finalizeMessage s).words⟩]

/-- The digest has `DIGEST_SIZE` bytes, byte `4j + k` being byte `k` in the instance's order of word `j` after the last
compression (R142). -/
def Obligations.DigestBytesAreTheWordsInOrder : Prop :=
  ∀ s : State, s.ready = true →
    ∃ t r, exec .digest s = .next t ∧ t.hostOut = s.hostOut ++ [⟨0x00, r⟩] ∧
      r.length = 4 * numWords s.alg ∧ r.length = digestSize s.alg ∧
      ∀ j < numWords s.alg, ∀ k < 4,
        r.getD (4 * j + k) 0 =
          ((finalizeMessage s).words.toList.getD j 0).extractLsb'
            (8 * (match s.alg with
              | .sha256s => 3 - k
              | .md5s => k)) 8

/-- The digest of nothing, straight after `INIT` and straight after another `DIGEST` (R147). -/
def Obligations.EmptyMessageDigest : Prop :=
  ∀ s : State,
    (∃ t, execAll [.init, .digest] s = .next t ∧
      t.hostOut = s.hostOut ++ [⟨0x00, []⟩, ⟨0x00, publishedEmptyDigest s.alg⟩]) ∧
    (s.ready = true → ∃ t q, execAll [.digest, .digest] s = .next t ∧
      t.hostOut = s.hostOut ++ [q, ⟨0x00, publishedEmptyDigest s.alg⟩])

/-! ### Sessions -/

/-- The buffer invariant and the iteration (10_state.md, "Buffer invariant"; 40_compress_and_accumulator.md,
"Iteration"): `INIT` and `DIGEST` start an empty message, `UPDATE` extends it by its payload, `RDSTATUS` leaves it. -/
def Obligations.CommandsKeepTheAcceptedMessage : Prop :=
  (∀ s t, exec .init s = .next t → t.Accepted []) ∧
  (∀ s t m data, s.Accepted m → exec (.update data) s = .next t → t.Accepted (m ++ data)) ∧
  (∀ s t m, s.Accepted m → exec .digest s = .next t → t.Accepted []) ∧
  (∀ s t m, s.Accepted m → exec .rdstatus s = .next t → t.Accepted m)

/-- `DIGEST` of a session that has accepted a message returns that message's padded digest
(44_digest_finalizer.md, "What a session computes"). -/
def Obligations.DigestOfTheAcceptedMessage : Prop :=
  ∀ s m, s.Accepted m →
    ∃ t, exec .digest s = .next t ∧
      t.hostOut = s.hostOut ++ [⟨0x00, messageDigest s.alg m⟩]

/-- From any state, `INIT`, any `UPDATE`s and a `DIGEST` return the digest of the payloads' concatenation: it depends on
nothing but the instance and the message (44_digest_finalizer.md, "What a session computes"; 45_session_commands.md,
"The digest is a function of the message"). -/
def Obligations.SessionReturnsTheMessageDigest : Prop :=
  ∀ (s : State) (chunks : List (List Byte)),
    ∃ t, execAll (.init :: (chunks.map .update ++ [.digest])) s = .next t ∧
      t.hostOut.getLast? = some ⟨0x00, messageDigest s.alg chunks.flatten⟩ ∧ t.fault = s.fault

/-- Chunking invariance: however the same bytes are split over `UPDATE` commands, `words`, `fill`, `total_length` and
the significant bytes end the same, and so do `ready` and `fault` (R127). -/
def Obligations.ChunkingInvariance : Prop :=
  ∀ (s : State) (chunks chunks' : List (List Byte)), s.ready = true →
    chunks.flatten = chunks'.flatten →
    ∃ t u, execAll (chunks.map .update) s = .next t ∧ execAll (chunks'.map .update) s = .next u ∧
      SameSession t u ∧ t.ready = u.ready ∧ t.fault = u.fault

/-- The pseudo-command `update.each` has the same final effect on the session as one `UPDATE` of its bytes
(30_encoding.md, section 5). -/
def Obligations.UpdateEachHasTheEffectOfUpdate : Prop :=
  ∀ (s : State) (bytes : List Byte), s.ready = true →
    ∃ t u, execAll (Pseudo.updateEach bytes).expand s = .next t ∧
      exec (.update bytes) s = .next u ∧ SameSession t u

/-- Reuse: after a successful `DIGEST` every later command sequence gives the replies it would give after
`INIT`; and what `fault` holds shows in no reply but that of `RDSTATUS` (R156). -/
def Obligations.DigestLeavesAFreshSession : Prop :=
  ∀ s : State, s.ready = true →
    ∃ t u, exec .digest s = .next t ∧ exec .init s = .next u ∧
      t.words = u.words ∧ t.storage = u.storage ∧ t.fill = u.fill ∧
      t.totalLength = u.totalLength ∧ t.ready = u.ready ∧
      (∀ cmds : List Instr, ∃ t' u' replies,
        execAll cmds t = .next t' ∧ execAll cmds u = .next u' ∧
        t'.hostOut = t.hostOut ++ replies ∧ u'.hostOut = u.hostOut ++ replies) ∧
      (∀ (code : BitVec 2) (cmds : List Instr), Instr.rdstatus ∉ cmds → ∃ t' u' replies,
        execAll cmds t = .next t' ∧ execAll cmds { u with fault := code } = .next u' ∧
        t'.hostOut = t.hostOut ++ replies ∧ u'.hostOut = u.hostOut ++ replies)

/-! ### Whole-machine rules -/

/-- The session state machine: the response and the next session state of every command, of an illegal
command word and of hardware reset, in either state (R153). -/
def Obligations.SessionStateMachine : Prop :=
  ∀ s : State,
    (∃ t, exec .init s = .next t ∧ t.ready = true ∧ t.fill = 0 ∧ t.totalLength = 0 ∧
      t.hostOut = s.hostOut ++ [⟨0x00, []⟩]) ∧
    (∀ data, ∃ t, exec (.update data) s = .next t ∧ t.ready = s.ready ∧
      t.hostOut = s.hostOut ++ [⟨if s.ready = true then 0x00 else 0x01, []⟩]) ∧
    (∃ t r, exec .digest s = .next t ∧ t.ready = s.ready ∧
      t.hostOut = s.hostOut ++ [⟨if s.ready = true then 0x00 else 0x01, r⟩]) ∧
    (∃ t b, exec .rdstatus s = .next t ∧ t.ready = s.ready ∧
      t.hostOut = s.hostOut ++ [⟨0x00, [b]⟩]) ∧
    (∀ c why rest, s.hostIn = .cmd c :: rest → decodeWord c = .illegal why →
      ∃ t, step s = .next t ∧ t.ready = s.ready ∧ t.hostOut = s.hostOut ++ [⟨0x02, []⟩]) ∧
    (∀ rest, s.hostIn = .reset :: rest →
      ∃ t, step s = .next t ∧ t.ready = false ∧ t.hostOut = s.hostOut)

/-- Every command completes in every state with one reply: `OK` and the result bytes of its kind, or
`NOT_READY` and none; it takes nothing more from the host (30_encoding.md, section 4; 60_exceptions.md, "How a model should class
the outcomes"). -/
def Obligations.EveryCommandCompletesWithOneReply : Prop :=
  ∀ (i : Instr) (s : State),
    ∃ t r, exec i s = .next t ∧ t.hostOut = s.hostOut ++ [r] ∧ t.hostIn = s.hostIn ∧
      ((r.resp = 0x00 ∧ r.result.length = (match i with
          | .init => 0
          | .update _ => 0
          | .digest => digestSize s.alg
          | .rdstatus => 1)) ∨
        (r.resp = 0x01 ∧ r.result = [] ∧ s.ready = false))

/-- A recorded fault is never overwritten but by hardware reset, `fault` changes only from 0, to the code of the fault
the same step reports, and no step changes the instance (10_state.md, `fault`; 00_scope.md, section 1). -/
def Obligations.FaultKeepsTheFirstCode : Prop :=
  ∀ s t : State, step s = .next t →
    t.alg = s.alg ∧
    ((∀ rest, decode s.hostIn ≠ .reset rest) →
      (s.fault ≠ 0 → t.fault = s.fault) ∧
      (t.fault ≠ s.fault → s.fault = 0 ∧
        ∃ r, t.hostOut = s.hostOut ++ [r] ∧ r.resp.toNat = t.fault.toNat ∧ r.result = []))

/-- Every step keeps the buffer's canonical form, which is the model's own form for the 64 bytes (log entry 10), and
`fault = 3` never occurs (10_state.md, `fault`). -/
def Obligations.StepKeepsTheStateSound : Prop :=
  ∀ s t : State, s.Inv → step s = .next t → t.Inv

/-- Every step keeps `fill = total_length mod 64` in the `Ready` state (10_state.md, "Relation between `fill` and
`total_length`"). -/
def Obligations.StepKeepsFillTiedToTotalLength : Prop :=
  ∀ s t : State, s.CountInv → step s = .next t → t.CountInv

/-- The invariants hold right after reset, for either instance. That the buffer is then in the canonical form rests on
the model's choices of that form and of what reset leaves in the buffer (log entries 2 and 10). -/
def Obligations.ResetMeetsTheInvariants : Prop :=
  (∀ alg : Alg, (State.resetFor alg).Inv ∧ (State.resetFor alg).CountInv) ∧
    State.reset.Inv ∧ State.reset.CountInv

/-- The values after hardware reset, for either instance: `ready = 0`, `fault = 0`, `STATUS` reads `0x00`; the
other four are unspecified and not claimed (R35). -/
def Obligations.ResetValues : Prop :=
  (∀ alg : Alg, (State.resetFor alg).ready = false ∧ (State.resetFor alg).fault = 0 ∧
    exec .rdstatus (State.resetFor alg) =
      .next { State.resetFor alg with hostOut := [⟨0x00, [0x00]⟩] }) ∧
    ∃ alg, State.reset = State.resetFor alg

/-- Observational equivalence: states that differ only in stale bytes, or while `ready = 0` only in the
four unspecified registers, cannot be told apart by any step, and stay so
(10_state.md, "Observational equivalence"). So no claim about replies rests on what the model puts there (log entries 2 and
9). -/
def Obligations.StepKeepsObservationalEquivalence : Prop :=
  ∀ s t : State, ObsEq s t → ObsEqOutcome (step s) (step t)

/-! ### Compression, bytes and arithmetic -/

/-- The working set is loaded from the state words (R84), and each result word is the input word plus
the working register after round 63, modulo 2^32 (R83). -/
def Obligations.CompressFeedsForward : Prop :=
  (∀ (h : Words8) (b : Block), sha256Working 0 h b = h ∧
    (compress (.sha256s h) b).toList =
      List.zipWith (· + ·) (HashState.sha256s h).toList
        (HashState.sha256s (sha256Working 64 h b)).toList) ∧
  (∀ (h : Words4) (b : Block), md5Working 0 h b = h ∧
    (compress (.md5s h) b).toList =
      List.zipWith (· + ·) (HashState.md5s h).toList (HashState.md5s (md5Working 64 h b)).toList)

/-- The 16-entry window computes the words of the unrolled recurrence: the function is the one whose rounds take
`W_0 .. W_63` from it (41_compress_sha256.md, "The window is the 64-word schedule"). -/
def Obligations.WindowIsTheUnrolledSchedule : Prop :=
  ∀ (h : Words8) (b : Block), compressSha256s h b = addWords8 h (sha256Unrolled h b)

/-- A byte at offset `o` of a block is byte `o mod 4`, in the instance's order, of parsed word `o / 4`
(20_memory.md, "Mixed-width view"). -/
def Obligations.BlockBytesAreBytesOfWords : Prop :=
  ∀ (b : Block) (o : Nat), o < 64 →
    ((parseBlock .be b).getD (o / 4) 0).extractLsb' (24 - 8 * (o % 4)) 8 = b.bytes.getD o 0 ∧
    ((parseBlock .le b).getD (o / 4) 0).extractLsb' (8 * (o % 4)) 8 = b.bytes.getD o 0

/-- The byte-order primitives have the formulas of R12. -/
def Obligations.ByteOrderPrimitives : Prop :=
  (∀ b0 b1 b2 b3 : Byte,
    (parse32 .be b0 b1 b2 b3).toNat =
      b0.toNat * 2 ^ 24 + b1.toNat * 2 ^ 16 + b2.toNat * 2 ^ 8 + b3.toNat ∧
    (parse32 .le b0 b1 b2 b3).toNat =
      b0.toNat + b1.toNat * 2 ^ 8 + b2.toNat * 2 ^ 16 + b3.toNat * 2 ^ 24) ∧
  (∀ w : Word,
    enc32 .be w = [w.extractLsb 31 24, w.extractLsb 23 16, w.extractLsb 15 8, w.extractLsb 7 0] ∧
    enc32 .le w = [w.extractLsb 7 0, w.extractLsb 15 8, w.extractLsb 23 16, w.extractLsb 31 24]) ∧
  (∀ v : Dword,
    enc64 .be v = [v.extractLsb 63 56, v.extractLsb 55 48, v.extractLsb 47 40, v.extractLsb 39 32,
      v.extractLsb 31 24, v.extractLsb 23 16, v.extractLsb 15 8, v.extractLsb 7 0] ∧
    enc64 .le v = [v.extractLsb 7 0, v.extractLsb 15 8, v.extractLsb 23 16, v.extractLsb 31 24,
      v.extractLsb 39 32, v.extractLsb 47 40, v.extractLsb 55 48, v.extractLsb 63 56])

/-- Shifts and rotates have the formulas of 00_scope.md section 5, for every amount between 0 and 32. -/
def Obligations.ShiftAndRotateFormulas : Prop :=
  ∀ (x : Word) (n : Nat), 0 < n → n < 32 →
    (shr32 x n).toNat = x.toNat / 2 ^ n ∧
    (rotl32 x n).toNat = (x.toNat * 2 ^ n) % 2 ^ 32 ||| x.toNat / 2 ^ (32 - n) ∧
    (rotr32 x n).toNat = x.toNat / 2 ^ n ||| (x.toNat * 2 ^ (32 - n)) % 2 ^ 32

/-- The bit count is the low 64 bits of `total_length * 8`: `total_length[60:0]` and three zero bits,
exact below 2^61 (R141). -/
def Obligations.BitCountWrapsAtTwoToTheSixtyFour : Prop :=
  ∀ v : Dword,
    (shl64x3 v).toNat = (v.toNat * 8) % 2 ^ 64 ∧
    shl64x3 v = v.extractLsb' 0 61 ++ (0 : BitVec 3) ∧
    (v.toNat < 2 ^ 61 → (shl64x3 v).toNat = v.toNat * 8)

/-- Every write `UPDATE` and `DIGEST` make lies inside the 64 bytes of the buffer and lands whole: an offset and bytes
that fit, the bytes there afterwards, and no other byte touched (20_memory.md, section 1). For `UPDATE` between the
state before and the state after, through the completed block where there is one; for `DIGEST` from state to state of
the finalizer. That the bytes a write passes by stay, stale ones among them, and that the writes are these, is the
model's choice where the spec lets stale bytes differ (log entries 9 and 10). -/
def Obligations.EveryWriteStaysInTheBuffer : Prop :=
  ∀ s : State, s.ready = true →
    (∀ data : List Byte, ∃ t, exec (.update data) s = .next t ∧
      (s.fill.toNat = 0 →
        WritesInside s t 0 (data.drop (64 * (data.length / 64)))) ∧
      (0 < s.fill.toNat → s.fill.toNat + data.length < 64 →
        WritesInside s t s.fill.toNat data) ∧
      (0 < s.fill.toNat → 64 ≤ s.fill.toNat + data.length → ∃ u,
        u = completeBlock (data.take (bytesLeft s)) (countBytes data.length s) ∧
        t = respondOk [] (absorbWhole (data.drop (bytesLeft s)) u) ∧
        WritesInside s u s.fill.toNat (data.take (64 - s.fill.toNat)) ∧
        WritesInside u t 0 (data.drop (data.length - (s.fill.toNat + data.length) % 64)))) ∧
    (∃ marked extra filled footed,
      marked = writeMarker s ∧ extra = extraBlock (s.fill.toNat + 1) marked ∧
      filled = zeroFill (cursorAfter (s.fill.toNat + 1)) (blockSize - footerBytes) extra ∧
      footed = writeFooter filled ∧
      exec .digest s = .next (respondOk (serialise (compressStorage footed).words)
        (initSession (compressStorage footed))) ∧
      WritesInside s marked s.fill.toNat [0x80] ∧
      (s.fill.toNat ≤ 55 → extra = marked ∧
        WritesInside extra filled (s.fill.toNat + 1) (List.replicate (55 - s.fill.toNat) 0)) ∧
      (56 ≤ s.fill.toNat →
        WritesInside marked extra (s.fill.toNat + 1) (List.replicate (63 - s.fill.toNat) 0) ∧
        WritesInside extra filled 0 (List.replicate 56 0)) ∧
      WritesInside filled footed 56 (lengthFooter s.alg s.totalLength.toNat))
end

