-- ==== Sys2Proof/Laws/Memory.lean ====
section
/-! SUPPORT. What the block buffer's operations do: a read after a write, the bytes a write leaves alone, and
the canonical form, which every operation keeps. -/

namespace Sys2Proof.Machine

/-! ### Reading one byte -/

theorem readByte_of_absent {m : Memory} {x : Nat} (h : ∀ c ∈ m, c.1 ≠ x) :
    Memory.readByte m x = 0 := by
  induction m with
  | nil => rfl
  | cons c m ih =>
    obtain ⟨a, b⟩ := c
    have ha : a ≠ x := h (a, b) List.mem_cons_self
    simpa [Memory.readByte, ha] using ih fun c hc => h c (List.mem_cons_of_mem _ hc)

theorem readByte_append_of_absent_left {m n : Memory} {x : Nat} (h : ∀ c ∈ m, c.1 ≠ x) :
    Memory.readByte (m ++ n) x = Memory.readByte n x := by
  induction m with
  | nil => rfl
  | cons c m ih =>
    obtain ⟨a, b⟩ := c
    have ha : a ≠ x := h (a, b) List.mem_cons_self
    simpa [Memory.readByte, ha] using ih fun c hc => h c (List.mem_cons_of_mem _ hc)

theorem readByte_append_of_absent_right {m n : Memory} {x : Nat} (h : ∀ c ∈ n, c.1 ≠ x) :
    Memory.readByte (m ++ n) x = Memory.readByte m x := by
  induction m with
  | nil => simpa [Memory.readByte, Memory.unlisted] using readByte_of_absent h
  | cons c m ih =>
    obtain ⟨a, b⟩ := c
    by_cases ha : a = x <;> simp [Memory.readByte, ha, ih]

/-- Dropping cells of other offsets does not change what `x` reads as. -/
theorem readByte_filter {m : Memory} {p : Nat → Bool} {x : Nat} (h : p x = true) :
    Memory.readByte (m.filter fun c => p c.1) x = Memory.readByte m x := by
  induction m with
  | nil => rfl
  | cons c m ih =>
    obtain ⟨a, b⟩ := c
    by_cases ha : a = x
    · subst ha; simp [h, Memory.readByte]
    · by_cases hp : p a = true <;> simp [hp, Memory.readByte, ha, ih]

/-- A byte that an unlisted offset reads as has no cell. -/
theorem cells_cons_zero (a : Nat) (bs : List Byte) :
    Memory.cells a (0 :: bs) = Memory.cells (a + 1) bs := by
  simp [Memory.cells, Memory.unlisted]

theorem cells_cons_of_ne_zero {b : Byte} (a : Nat) (bs : List Byte) (hb : b ≠ 0) :
    Memory.cells a (b :: bs) = (a, b) :: Memory.cells (a + 1) bs := by
  rw [Memory.cells, if_neg hb]

theorem readByte_cells (a : Nat) (bs : List Byte) (x : Nat) :
    Memory.readByte (Memory.cells a bs) x = if a ≤ x then bs.getD (x - a) 0 else 0 := by
  induction bs generalizing a with
  | nil => simp [Memory.cells, Memory.readByte, Memory.unlisted]
  | cons b bs ih =>
    by_cases hax : a = x
    · subst hax
      by_cases hb : b = 0
      · subst hb; rw [cells_cons_zero, ih]; simp
      · rw [cells_cons_of_ne_zero _ _ hb]; simp [Memory.readByte]
    · have hstep : Memory.readByte (Memory.cells a (b :: bs)) x
          = Memory.readByte (Memory.cells (a + 1) bs) x := by
        by_cases hb : b = 0
        · subst hb; rw [cells_cons_zero]
        · rw [cells_cons_of_ne_zero _ _ hb]; simp [Memory.readByte, hax]
      rw [hstep, ih]
      by_cases hle : a ≤ x
      · have h1 : a + 1 ≤ x := by omega
        have h2 : x - a = (x - (a + 1)) + 1 := by omega
        simp [hle, h1, h2]
      · have h1 : ¬ a + 1 ≤ x := by omega
        simp [hle, h1]

/-- Where the cells of a run of bytes lie, and that none of them reads as unlisted. -/
theorem mem_cells {a : Nat} {bs : List Byte} {c : Host.Cell} (h : c ∈ Memory.cells a bs) :
    a ≤ c.1 ∧ c.1 < a + bs.length ∧ c.2 ≠ 0 := by
  induction bs generalizing a with
  | nil => simp [Memory.cells] at h
  | cons b bs ih =>
    by_cases hb : b = 0
    · subst hb
      rw [cells_cons_zero] at h
      have := ih h; simp only [List.length_cons]; exact ⟨by omega, by omega, this.2.2⟩
    · rw [cells_cons_of_ne_zero _ _ hb] at h
      rcases List.mem_cons.mp h with rfl | h
      · exact ⟨le_rfl, by simp, hb⟩
      · have := ih h; simp only [List.length_cons]; exact ⟨by omega, by omega, this.2.2⟩

/-! ### Read after write -/

/-- Every byte after a `MemWrite`: the written one inside the run, the old one elsewhere. -/
theorem readByte_memWrite (m : Memory) (a : Nat) (v : List Byte) (x : Nat) :
    Memory.readByte (memWrite m a v) x =
      if a ≤ x ∧ x < a + (writable a v).length then (writable a v).getD (x - a) 0
      else Memory.readByte m x := by
  unfold memWrite
  generalize writable a v = w
  by_cases hlo : x < a
  · rw [if_neg (by omega), readByte_append_of_absent_right, readByte_append_of_absent_right,
      readByte_filter (p := fun y => decide (y < a)) (by simpa using hlo)]
    · intro c hc; have := mem_cells hc; omega
    · intro c hc; simp at hc; omega
  · by_cases hhi : x < a + w.length
    · rw [if_pos ⟨by omega, hhi⟩, readByte_append_of_absent_right, readByte_append_of_absent_left,
        readByte_cells, if_pos (by omega)]
      · intro c hc; simp at hc; omega
      · intro c hc; simp at hc; omega
    · rw [if_neg (by omega), readByte_append_of_absent_left,
        readByte_filter (p := fun y => decide (a + w.length ≤ y)) (by simpa using hhi)]
      intro c hc
      rcases List.mem_append.mp hc with hc | hc
      · simp at hc; omega
      · have := mem_cells hc; omega

/-- Every use the engine makes of `MemWrite` fits, and then nothing is cut off (20_memory.md R42). -/
theorem writable_of_fits {a : Nat} {v : List Byte} (h : a + v.length ≤ 64) : writable a v = v := by
  simp [writable, blockSize, List.take_of_length_le (show v.length ≤ 64 - a by omega)]

theorem readByte_memWrite_of_fits {m : Memory} {a : Nat} {v : List Byte} (x : Nat)
    (h : a + v.length ≤ 64) :
    Memory.readByte (memWrite m a v) x =
      if a ≤ x ∧ x < a + v.length then v.getD (x - a) 0 else Memory.readByte m x := by
  rw [readByte_memWrite, writable_of_fits h]

/-! ### Reading a run of bytes -/

@[simp] theorem length_memRead (m : Memory) (a n : Nat) : (memRead m a n).length = n := by
  simp [memRead]

theorem getD_memRead (m : Memory) (a n i : Nat) (h : i < n) :
    (memRead m a n).getD i 0 = Memory.readByte m (a + i) := by
  simp [memRead, List.getD, h]

/-- Two memories that read the same over a run give the same bytes. -/
theorem memRead_congr {m n : Memory} {a k : Nat}
    (h : ∀ i < k, Memory.readByte m (a + i) = Memory.readByte n (a + i)) :
    memRead m a k = memRead n a k := by
  simp only [memRead]
  exact List.map_congr_left fun i hi => h i (List.mem_range.mp hi)

@[simp] theorem zeroStorage_eq : zeroStorage = [] := rfl

/-- The cleared buffer is the one that 64 bytes `0x00` make. -/
theorem zeroStorage_eq_cells : zeroStorage = Memory.cells 0 (zeroBytes blockSize) := by decide

@[simp] theorem readByte_nil (x : Nat) : Memory.readByte [] x = 0 := rfl

/-! ### The canonical form -/

theorem wf_iff (m : Memory) :
    Memory.wf m = true ↔
      (m.map Prod.fst).Pairwise (· < ·) ∧ ∀ c ∈ m, c.1 < 64 ∧ c.2 ≠ 0 := by
  simp only [Memory.wf, Bool.and_eq_true, decide_eq_true_eq, List.all_eq_true]

@[simp] theorem wf_nil : Memory.wf [] = true := by decide

theorem pairwise_cells (a : Nat) (bs : List Byte) :
    ((Memory.cells a bs).map Prod.fst).Pairwise (· < ·) := by
  induction bs generalizing a with
  | nil => simp [Memory.cells]
  | cons b bs ih =>
    by_cases hb : b = 0
    · subst hb; rw [cells_cons_zero]; exact ih (a + 1)
    · rw [cells_cons_of_ne_zero _ _ hb]
      simp only [List.map_cons, List.pairwise_cons]
      refine ⟨?_, ih (a + 1)⟩
      intro y hy
      obtain ⟨c, hc, rfl⟩ := List.mem_map.mp hy
      have := mem_cells hc; omega

theorem length_writable_le (a : Nat) (v : List Byte) : (writable a v).length ≤ 64 - a := by
  simp [writable, blockSize]

/-- No `MemWrite` touches anything outside the 64 bytes. -/
theorem readByte_memWrite_above {m : Memory} {a x : Nat} {v : List Byte} (h : 64 ≤ x) :
    Memory.readByte (memWrite m a v) x = Memory.readByte m x := by
  have := length_writable_le a v
  rw [readByte_memWrite, if_neg (by omega)]

/-- `MemWrite` keeps the canonical form, whatever the offset and the bytes. -/
theorem wf_memWrite {m : Memory} (a : Nat) (v : List Byte) (h : Memory.wf m = true) :
    Memory.wf (memWrite m a v) = true := by
  obtain ⟨hp, hc⟩ := (wf_iff m).mp h
  have hlen := length_writable_le a v
  refine (wf_iff _).mpr ⟨?_, ?_⟩
  · unfold memWrite
    generalize writable a v = w at hlen
    have hf : ∀ p : Host.Cell → Bool, ((m.filter p).map Prod.fst).Pairwise (· < ·) := fun p =>
      hp.sublist (List.Sublist.map _ List.filter_sublist)
    simp only [List.map_append, List.pairwise_append]
    refine ⟨⟨hf _, pairwise_cells a w, ?_⟩, hf _, ?_⟩
    · intro x hx y hy
      obtain ⟨c, hc, rfl⟩ := List.mem_map.mp hx
      obtain ⟨d, hd, rfl⟩ := List.mem_map.mp hy
      have := mem_cells hd
      simp at hc; omega
    · intro x hx y hy
      obtain ⟨d, hd, rfl⟩ := List.mem_map.mp hy
      simp at hd
      rcases List.mem_append.mp hx with hx | hx
      · obtain ⟨c, hc, rfl⟩ := List.mem_map.mp hx
        simp at hc; omega
      · obtain ⟨c, hc, rfl⟩ := List.mem_map.mp hx
        have := mem_cells hc; omega
  · intro c hmem
    unfold memWrite at hmem
    rcases List.mem_append.mp hmem with hmem | hmem
    · rcases List.mem_append.mp hmem with hmem | hmem
      · exact hc c (List.mem_filter.mp hmem).1
      · have := mem_cells hmem
        exact ⟨by omega, this.2.2⟩
    · exact hc c (List.mem_filter.mp hmem).1

theorem wf_zeroStorage : Memory.wf zeroStorage = true := by decide

end Sys2Proof.Machine
end

