-- ==== Sys2Proof/Laws/State.lean ====
section
/-! SUPPORT. One lemma per field of `State` for each update of it, so that no proof unfolds a record update, and
that no update changes the instance. -/

namespace Sys2Proof.Machine

/-! ### Reset -/

@[simp] theorem resetFor_words (alg : Alg) : (State.resetFor alg).words = HashState.zero alg := rfl
@[simp] theorem resetFor_storage (alg : Alg) : (State.resetFor alg).storage = [] := rfl
@[simp] theorem resetFor_fill (alg : Alg) : (State.resetFor alg).fill = 0 := rfl
@[simp] theorem resetFor_totalLength (alg : Alg) : (State.resetFor alg).totalLength = 0 := rfl
@[simp] theorem resetFor_ready (alg : Alg) : (State.resetFor alg).ready = false := rfl
@[simp] theorem resetFor_fault (alg : Alg) : (State.resetFor alg).fault = 0 := rfl
@[simp] theorem resetFor_hostIn (alg : Alg) : (State.resetFor alg).hostIn = [] := rfl
@[simp] theorem resetFor_hostOut (alg : Alg) : (State.resetFor alg).hostOut = [] := rfl

/-! ### `consumeTo` -/

@[simp] theorem consumeTo_words (rest : List HostItem) (s : State) :
    (consumeTo rest s).words = s.words := rfl
@[simp] theorem consumeTo_storage (rest : List HostItem) (s : State) :
    (consumeTo rest s).storage = s.storage := rfl
@[simp] theorem consumeTo_fill (rest : List HostItem) (s : State) :
    (consumeTo rest s).fill = s.fill := rfl
@[simp] theorem consumeTo_totalLength (rest : List HostItem) (s : State) :
    (consumeTo rest s).totalLength = s.totalLength := rfl
@[simp] theorem consumeTo_ready (rest : List HostItem) (s : State) :
    (consumeTo rest s).ready = s.ready := rfl
@[simp] theorem consumeTo_fault (rest : List HostItem) (s : State) :
    (consumeTo rest s).fault = s.fault := rfl
@[simp] theorem consumeTo_hostIn (rest : List HostItem) (s : State) :
    (consumeTo rest s).hostIn = rest := rfl
@[simp] theorem consumeTo_hostOut (rest : List HostItem) (s : State) :
    (consumeTo rest s).hostOut = s.hostOut := rfl

/-! ### `respond` -/

@[simp] theorem respond_words (resp : Byte) (bs : List Byte) (s : State) :
    (respond resp bs s).words = s.words := rfl
@[simp] theorem respond_storage (resp : Byte) (bs : List Byte) (s : State) :
    (respond resp bs s).storage = s.storage := rfl
@[simp] theorem respond_fill (resp : Byte) (bs : List Byte) (s : State) :
    (respond resp bs s).fill = s.fill := rfl
@[simp] theorem respond_totalLength (resp : Byte) (bs : List Byte) (s : State) :
    (respond resp bs s).totalLength = s.totalLength := rfl
@[simp] theorem respond_ready (resp : Byte) (bs : List Byte) (s : State) :
    (respond resp bs s).ready = s.ready := rfl
@[simp] theorem respond_fault (resp : Byte) (bs : List Byte) (s : State) :
    (respond resp bs s).fault = s.fault := rfl
@[simp] theorem respond_hostIn (resp : Byte) (bs : List Byte) (s : State) :
    (respond resp bs s).hostIn = s.hostIn := rfl
@[simp] theorem respond_hostOut (resp : Byte) (bs : List Byte) (s : State) :
    (respond resp bs s).hostOut = s.hostOut ++ [⟨resp, bs⟩] := rfl

/-! ### `respondOk` -/

@[simp] theorem respondOk_words (bs : List Byte) (s : State) : (respondOk bs s).words = s.words := rfl
@[simp] theorem respondOk_storage (bs : List Byte) (s : State) :
    (respondOk bs s).storage = s.storage := rfl
@[simp] theorem respondOk_fill (bs : List Byte) (s : State) : (respondOk bs s).fill = s.fill := rfl
@[simp] theorem respondOk_totalLength (bs : List Byte) (s : State) :
    (respondOk bs s).totalLength = s.totalLength := rfl
@[simp] theorem respondOk_ready (bs : List Byte) (s : State) : (respondOk bs s).ready = s.ready := rfl
@[simp] theorem respondOk_fault (bs : List Byte) (s : State) : (respondOk bs s).fault = s.fault := rfl
@[simp] theorem respondOk_hostIn (bs : List Byte) (s : State) :
    (respondOk bs s).hostIn = s.hostIn := rfl
@[simp] theorem respondOk_hostOut (bs : List Byte) (s : State) :
    (respondOk bs s).hostOut = s.hostOut ++ [⟨respOk, bs⟩] := rfl

/-! ### `raiseFault` -/

@[simp] theorem raiseFault_words (code : FaultCode) (s : State) :
    (raiseFault code s).words = s.words := rfl
@[simp] theorem raiseFault_storage (code : FaultCode) (s : State) :
    (raiseFault code s).storage = s.storage := rfl
@[simp] theorem raiseFault_fill (code : FaultCode) (s : State) :
    (raiseFault code s).fill = s.fill := rfl
@[simp] theorem raiseFault_totalLength (code : FaultCode) (s : State) :
    (raiseFault code s).totalLength = s.totalLength := rfl
@[simp] theorem raiseFault_ready (code : FaultCode) (s : State) :
    (raiseFault code s).ready = s.ready := rfl
@[simp] theorem raiseFault_fault (code : FaultCode) (s : State) :
    (raiseFault code s).fault = recordFault code s.fault := rfl
@[simp] theorem raiseFault_hostIn (code : FaultCode) (s : State) :
    (raiseFault code s).hostIn = s.hostIn := rfl
@[simp] theorem raiseFault_hostOut (code : FaultCode) (s : State) :
    (raiseFault code s).hostOut = s.hostOut ++ [⟨faultResp code, []⟩] := rfl

/-! ### `initSession` -/

@[simp] theorem initSession_words (s : State) : (initSession s).words = iv s.alg := rfl
@[simp] theorem initSession_storage (s : State) : (initSession s).storage = [] := rfl
@[simp] theorem initSession_fill (s : State) : (initSession s).fill = 0 := rfl
@[simp] theorem initSession_totalLength (s : State) : (initSession s).totalLength = 0 := rfl
@[simp] theorem initSession_ready (s : State) : (initSession s).ready = true := rfl
@[simp] theorem initSession_fault (s : State) : (initSession s).fault = s.fault := rfl
@[simp] theorem initSession_hostIn (s : State) : (initSession s).hostIn = s.hostIn := rfl
@[simp] theorem initSession_hostOut (s : State) : (initSession s).hostOut = s.hostOut := rfl

/-! ### `hardwareReset` -/

@[simp] theorem hardwareReset_words (s : State) : (hardwareReset s).words = HashState.zero s.alg := rfl
@[simp] theorem hardwareReset_storage (s : State) : (hardwareReset s).storage = [] := rfl
@[simp] theorem hardwareReset_fill (s : State) : (hardwareReset s).fill = 0 := rfl
@[simp] theorem hardwareReset_totalLength (s : State) : (hardwareReset s).totalLength = 0 := rfl
@[simp] theorem hardwareReset_ready (s : State) : (hardwareReset s).ready = false := rfl
@[simp] theorem hardwareReset_fault (s : State) : (hardwareReset s).fault = 0 := rfl
@[simp] theorem hardwareReset_hostIn (s : State) : (hardwareReset s).hostIn = s.hostIn := rfl
@[simp] theorem hardwareReset_hostOut (s : State) : (hardwareReset s).hostOut = s.hostOut := rfl

/-! ### `compressBlock` -/

@[simp] theorem compressBlock_words (b : Block) (s : State) :
    (compressBlock b s).words = compress s.words b := rfl
@[simp] theorem compressBlock_storage (b : Block) (s : State) :
    (compressBlock b s).storage = s.storage := rfl
@[simp] theorem compressBlock_fill (b : Block) (s : State) : (compressBlock b s).fill = s.fill := rfl
@[simp] theorem compressBlock_totalLength (b : Block) (s : State) :
    (compressBlock b s).totalLength = s.totalLength := rfl
@[simp] theorem compressBlock_ready (b : Block) (s : State) :
    (compressBlock b s).ready = s.ready := rfl
@[simp] theorem compressBlock_fault (b : Block) (s : State) :
    (compressBlock b s).fault = s.fault := rfl
@[simp] theorem compressBlock_hostIn (b : Block) (s : State) :
    (compressBlock b s).hostIn = s.hostIn := rfl
@[simp] theorem compressBlock_hostOut (b : Block) (s : State) :
    (compressBlock b s).hostOut = s.hostOut := rfl

/-! ### `compressStorage` -/

@[simp] theorem compressStorage_words (s : State) :
    (compressStorage s).words = compress s.words (storageBlock s.storage) := rfl
@[simp] theorem compressStorage_storage (s : State) : (compressStorage s).storage = s.storage := rfl
@[simp] theorem compressStorage_fill (s : State) : (compressStorage s).fill = s.fill := rfl
@[simp] theorem compressStorage_totalLength (s : State) :
    (compressStorage s).totalLength = s.totalLength := rfl
@[simp] theorem compressStorage_ready (s : State) : (compressStorage s).ready = s.ready := rfl
@[simp] theorem compressStorage_fault (s : State) : (compressStorage s).fault = s.fault := rfl
@[simp] theorem compressStorage_hostIn (s : State) : (compressStorage s).hostIn = s.hostIn := rfl
@[simp] theorem compressStorage_hostOut (s : State) : (compressStorage s).hostOut = s.hostOut := rfl

/-! ### `countBytes` -/

@[simp] theorem countBytes_words (n : Nat) (s : State) : (countBytes n s).words = s.words := rfl
@[simp] theorem countBytes_storage (n : Nat) (s : State) : (countBytes n s).storage = s.storage := rfl
@[simp] theorem countBytes_fill (n : Nat) (s : State) : (countBytes n s).fill = s.fill := rfl
@[simp] theorem countBytes_totalLength (n : Nat) (s : State) :
    (countBytes n s).totalLength = s.totalLength + BitVec.ofNat 64 n := rfl
@[simp] theorem countBytes_ready (n : Nat) (s : State) : (countBytes n s).ready = s.ready := rfl
@[simp] theorem countBytes_fault (n : Nat) (s : State) : (countBytes n s).fault = s.fault := rfl
@[simp] theorem countBytes_hostIn (n : Nat) (s : State) : (countBytes n s).hostIn = s.hostIn := rfl
@[simp] theorem countBytes_hostOut (n : Nat) (s : State) : (countBytes n s).hostOut = s.hostOut := rfl

/-! ### `appendBytes` -/

@[simp] theorem appendBytes_words (data : List Byte) (s : State) :
    (appendBytes data s).words = s.words := rfl
@[simp] theorem appendBytes_storage (data : List Byte) (s : State) :
    (appendBytes data s).storage = memWrite s.storage s.fill.toNat data := rfl
@[simp] theorem appendBytes_fill (data : List Byte) (s : State) :
    (appendBytes data s).fill = s.fill + BitVec.ofNat 6 data.length := rfl
@[simp] theorem appendBytes_totalLength (data : List Byte) (s : State) :
    (appendBytes data s).totalLength = s.totalLength := rfl
@[simp] theorem appendBytes_ready (data : List Byte) (s : State) :
    (appendBytes data s).ready = s.ready := rfl
@[simp] theorem appendBytes_fault (data : List Byte) (s : State) :
    (appendBytes data s).fault = s.fault := rfl
@[simp] theorem appendBytes_hostIn (data : List Byte) (s : State) :
    (appendBytes data s).hostIn = s.hostIn := rfl
@[simp] theorem appendBytes_hostOut (data : List Byte) (s : State) :
    (appendBytes data s).hostOut = s.hostOut := rfl

/-! ### `completeBlock` -/

@[simp] theorem completeBlock_words (data : List Byte) (s : State) :
    (completeBlock data s).words = compress s.words (storageBlock (memWrite s.storage s.fill.toNat data)) := rfl
@[simp] theorem completeBlock_storage (data : List Byte) (s : State) :
    (completeBlock data s).storage = memWrite s.storage s.fill.toNat data := rfl
@[simp] theorem completeBlock_fill (data : List Byte) (s : State) :
    (completeBlock data s).fill = 0 := rfl
@[simp] theorem completeBlock_totalLength (data : List Byte) (s : State) :
    (completeBlock data s).totalLength = s.totalLength := rfl
@[simp] theorem completeBlock_ready (data : List Byte) (s : State) :
    (completeBlock data s).ready = s.ready := rfl
@[simp] theorem completeBlock_fault (data : List Byte) (s : State) :
    (completeBlock data s).fault = s.fault := rfl
@[simp] theorem completeBlock_hostIn (data : List Byte) (s : State) :
    (completeBlock data s).hostIn = s.hostIn := rfl
@[simp] theorem completeBlock_hostOut (data : List Byte) (s : State) :
    (completeBlock data s).hostOut = s.hostOut := rfl

/-! ### `storeTail` -/

@[simp] theorem storeTail_words (tail : List Byte) (s : State) :
    (storeTail tail s).words = s.words := rfl
@[simp] theorem storeTail_storage (tail : List Byte) (s : State) :
    (storeTail tail s).storage = memWrite s.storage 0 tail := rfl
@[simp] theorem storeTail_fill (tail : List Byte) (s : State) :
    (storeTail tail s).fill = BitVec.ofNat 6 tail.length := rfl
@[simp] theorem storeTail_totalLength (tail : List Byte) (s : State) :
    (storeTail tail s).totalLength = s.totalLength := rfl
@[simp] theorem storeTail_ready (tail : List Byte) (s : State) :
    (storeTail tail s).ready = s.ready := rfl
@[simp] theorem storeTail_fault (tail : List Byte) (s : State) :
    (storeTail tail s).fault = s.fault := rfl
@[simp] theorem storeTail_hostIn (tail : List Byte) (s : State) :
    (storeTail tail s).hostIn = s.hostIn := rfl
@[simp] theorem storeTail_hostOut (tail : List Byte) (s : State) :
    (storeTail tail s).hostOut = s.hostOut := rfl

/-! ### `writeMarker` -/

@[simp] theorem writeMarker_words (s : State) : (writeMarker s).words = s.words := rfl
@[simp] theorem writeMarker_storage (s : State) :
    (writeMarker s).storage = memWrite s.storage s.fill.toNat [markerByte] := rfl
@[simp] theorem writeMarker_fill (s : State) : (writeMarker s).fill = s.fill := rfl
@[simp] theorem writeMarker_totalLength (s : State) :
    (writeMarker s).totalLength = s.totalLength := rfl
@[simp] theorem writeMarker_ready (s : State) : (writeMarker s).ready = s.ready := rfl
@[simp] theorem writeMarker_fault (s : State) : (writeMarker s).fault = s.fault := rfl
@[simp] theorem writeMarker_hostIn (s : State) : (writeMarker s).hostIn = s.hostIn := rfl
@[simp] theorem writeMarker_hostOut (s : State) : (writeMarker s).hostOut = s.hostOut := rfl

/-! ### `zeroFill` -/

@[simp] theorem zeroFill_words (c top : Nat) (s : State) : (zeroFill c top s).words = s.words := rfl
@[simp] theorem zeroFill_storage (c top : Nat) (s : State) :
    (zeroFill c top s).storage = memWrite s.storage c (zeroBytes (top - c)) := rfl
@[simp] theorem zeroFill_fill (c top : Nat) (s : State) : (zeroFill c top s).fill = s.fill := rfl
@[simp] theorem zeroFill_totalLength (c top : Nat) (s : State) :
    (zeroFill c top s).totalLength = s.totalLength := rfl
@[simp] theorem zeroFill_ready (c top : Nat) (s : State) : (zeroFill c top s).ready = s.ready := rfl
@[simp] theorem zeroFill_fault (c top : Nat) (s : State) : (zeroFill c top s).fault = s.fault := rfl
@[simp] theorem zeroFill_hostIn (c top : Nat) (s : State) : (zeroFill c top s).hostIn = s.hostIn := rfl
@[simp] theorem zeroFill_hostOut (c top : Nat) (s : State) :
    (zeroFill c top s).hostOut = s.hostOut := rfl

/-! ### `writeFooter` -/

@[simp] theorem writeFooter_words (s : State) : (writeFooter s).words = s.words := rfl
@[simp] theorem writeFooter_storage (s : State) :
    (writeFooter s).storage = memWrite s.storage (blockSize - footerBytes)
      (enc64 (byteOrder s.alg) (shl64x3 s.totalLength)) := rfl
@[simp] theorem writeFooter_fill (s : State) : (writeFooter s).fill = s.fill := rfl
@[simp] theorem writeFooter_totalLength (s : State) :
    (writeFooter s).totalLength = s.totalLength := rfl
@[simp] theorem writeFooter_ready (s : State) : (writeFooter s).ready = s.ready := rfl
@[simp] theorem writeFooter_fault (s : State) : (writeFooter s).fault = s.fault := rfl
@[simp] theorem writeFooter_hostIn (s : State) : (writeFooter s).hostIn = s.hostIn := rfl
@[simp] theorem writeFooter_hostOut (s : State) : (writeFooter s).hostOut = s.hostOut := rfl

/-! ### The instance -/

@[simp] theorem alg_iv (alg : Alg) : (iv alg).alg = alg := by cases alg <;> rfl

@[simp] theorem alg_zero (alg : Alg) : (HashState.zero alg).alg = alg := by cases alg <;> rfl

/-- A compression keeps the instance. -/
@[simp] theorem alg_compress (h : HashState) (b : Block) : (compress h b).alg = h.alg := by
  cases h <;> simp only [compress, HashState.alg]

@[simp] theorem resetFor_alg (alg : Alg) : (State.resetFor alg).alg = alg := alg_zero alg

@[simp] theorem consumeTo_alg (rest : List HostItem) (s : State) : (consumeTo rest s).alg = s.alg := rfl
@[simp] theorem respond_alg (resp : Byte) (bs : List Byte) (s : State) : (respond resp bs s).alg = s.alg := rfl
@[simp] theorem respondOk_alg (bs : List Byte) (s : State) : (respondOk bs s).alg = s.alg := rfl
@[simp] theorem raiseFault_alg (code : FaultCode) (s : State) : (raiseFault code s).alg = s.alg := rfl
@[simp] theorem initSession_alg (s : State) : (initSession s).alg = s.alg := alg_iv s.alg
@[simp] theorem hardwareReset_alg (s : State) : (hardwareReset s).alg = s.alg := alg_zero s.alg
@[simp] theorem compressBlock_alg (b : Block) (s : State) : (compressBlock b s).alg = s.alg := alg_compress s.words _
@[simp] theorem compressStorage_alg (s : State) : (compressStorage s).alg = s.alg := alg_compress s.words _
@[simp] theorem countBytes_alg (n : Nat) (s : State) : (countBytes n s).alg = s.alg := rfl
@[simp] theorem appendBytes_alg (data : List Byte) (s : State) : (appendBytes data s).alg = s.alg := rfl
@[simp] theorem completeBlock_alg (data : List Byte) (s : State) : (completeBlock data s).alg = s.alg := alg_compress s.words _
@[simp] theorem storeTail_alg (tail : List Byte) (s : State) : (storeTail tail s).alg = s.alg := rfl
@[simp] theorem writeMarker_alg (s : State) : (writeMarker s).alg = s.alg := rfl
@[simp] theorem zeroFill_alg (c top : Nat) (s : State) : (zeroFill c top s).alg = s.alg := rfl
@[simp] theorem writeFooter_alg (s : State) : (writeFooter s).alg = s.alg := rfl

end Sys2Proof.Machine
end

