-- ==== Sys2Proof/Laws/Blocks.lean ====
section
/-! SUPPORT. Blocks, the blocks of a byte sequence, and the loop of `UPDATE` over whole blocks. -/

namespace Sys2Proof.Machine

/-! ### Blocks -/

theorem Block.eq_of_bytes {a b : Block} (h : a.bytes = b.bytes) : a = b := by
  cases a; cases b; simpa using h

theorem Block.ofFn_congr {f g : Nat → Byte} (h : ∀ i < 64, f i = g i) :
    Block.ofFn f = Block.ofFn g :=
  Block.eq_of_bytes (List.map_congr_left fun i hi => h i (List.mem_range.mp hi))

theorem Block.getD_ofFn (f : Nat → Byte) {i : Nat} (h : i < 64) :
    (Block.ofFn f).bytes.getD i 0 = f i := by
  simp [Block.ofFn, List.getD, h]

/-- A block made of exactly its 64 bytes. -/
theorem Block.bytes_ofList {l : List Byte} (h : l.length = 64) : (Block.ofList l).bytes = l := by
  apply List.ext_getElem
  · simp [Block.ofList, Block.ofFn, h]
  · intro i h1 h2
    simp [Block.ofList, Block.ofFn, List.getD, h2]

/-- The buffer as a block, byte by byte. -/
theorem storageBlock_eq (m : Memory) :
    storageBlock m = Block.ofFn fun i => Memory.readByte m i := by
  refine Block.ofFn_congr fun i hi => ?_
  simpa [blockSize] using getD_memRead m 0 64 i hi

/-- Memories that read the same at all 64 offsets are the same block. -/
theorem storageBlock_congr {m n : Memory}
    (h : ∀ i < 64, Memory.readByte m i = Memory.readByte n i) : storageBlock m = storageBlock n := by
  rw [storageBlock_eq, storageBlock_eq]; exact Block.ofFn_congr h

/-! ### The blocks of a byte sequence -/

@[simp] theorem length_blocksOf (x : List Byte) : (blocksOf x).length = x.length / 64 := by
  simp [blocksOf]

theorem blocksOf_of_short {x : List Byte} (h : x.length < 64) : blocksOf x = [] := by
  simp [blocksOf, Nat.div_eq_of_lt h]

@[simp] theorem blocksOf_nil : blocksOf [] = [] := blocksOf_of_short (by simp)

/-- The first block, and the blocks of what follows it. -/
theorem blocksOf_of_long {x : List Byte} (h : 64 ≤ x.length) :
    blocksOf x = Block.ofList x :: blocksOf (x.drop 64) := by
  have hd : x.length / 64 = (x.length - 64) / 64 + 1 := by omega
  simp only [blocksOf, hd, List.length_drop, List.range_succ_eq_map, List.map_cons, List.map_map]
  refine congrArg₂ _ ?_ (List.map_congr_left fun k _ => ?_)
  · simp [Block.ofList]
  · refine Block.ofFn_congr fun i _ => ?_
    simp only [List.getD, Nat.succ_eq_add_one, List.getElem?_drop]
    congr 2
    omega

/-- Whole blocks first, then the rest. -/
theorem blocksOf_append {x y : List Byte} (h : x.length % 64 = 0) :
    blocksOf (x ++ y) = blocksOf x ++ blocksOf y := by
  induction hn : x.length / 64 generalizing x with
  | zero =>
    have : x = [] := List.eq_nil_of_length_eq_zero (by omega)
    simp [this]
  | succ n ih =>
    have hx : 64 ≤ x.length := by omega
    rw [blocksOf_of_long (x := x ++ y) (by simp; omega), blocksOf_of_long hx,
      List.drop_append_of_le_length hx, ih (by simp; omega) (by simp; omega), List.cons_append]
    refine congrArg₂ _ (Block.ofFn_congr fun i hi => ?_) rfl
    simp [List.getD, List.getElem?_append_left (show i < x.length by omega)]

/-- Bytes after the last whole block change no block. -/
theorem blocksOf_append_of_short {x y : List Byte} (h : x.length % 64 = 0) (hy : y.length < 64) :
    blocksOf (x ++ y) = blocksOf x := by
  rw [blocksOf_append h, blocksOf_of_short hy, List.append_nil]

/-- Exactly one block. -/
theorem blocksOf_of_block {x : List Byte} (h : x.length = 64) : blocksOf x = [Block.ofList x] := by
  rw [blocksOf_of_long (by omega), blocksOf_of_short (by simp [h])]

/-- The whole blocks of a sequence are those of its longest part that is a whole number of blocks. -/
theorem blocksOf_take (x : List Byte) : blocksOf (x.take (64 * (x.length / 64))) = blocksOf x := by
  conv_rhs => rw [← List.take_append_drop (64 * (x.length / 64)) x]
  refine (blocksOf_append_of_short ?_ ?_).symm
  · rw [List.length_take, Nat.min_eq_left (Nat.mul_div_le _ _)]; omega
  · rw [List.length_drop]; omega

/-! ### Iterated compression (40_compress_and_accumulator.md R87) -/

@[simp] theorem compressAll_nil (h : HashState) : compressAll h [] = h := rfl

@[simp] theorem compressAll_cons (h : HashState) (b : Block) (bs : List Block) :
    compressAll h (b :: bs) = compressAll (compress h b) bs := rfl

theorem compressAll_append (h : HashState) (bs cs : List Block) :
    compressAll h (bs ++ cs) = compressAll (compressAll h bs) cs := List.foldl_append

@[simp] theorem alg_compressAll (h : HashState) (bs : List Block) :
    (compressAll h bs).alg = h.alg := by
  induction bs generalizing h with
  | nil => rfl
  | cons b bs ih => rw [compressAll_cons, ih, alg_compress]

/-! ### The loop over whole blocks (43_update_buffer_manager.md R124) -/

/-- The loop compresses the whole blocks of the payload in order, and does nothing else. -/
theorem compressEach_eq (data : List Byte) (s : State) :
    compressEach (data.length / 64) data s =
      { s with words := compressAll s.words (blocksOf data) } := by
  induction hn : data.length / 64 generalizing data s with
  | zero => rw [blocksOf_of_short (by omega)]; rfl
  | succ n ih =>
    have hx : 64 ≤ data.length := by omega
    have hd : (data.drop 64).length / 64 = n := by rw [List.length_drop]; omega
    rw [compressEach, blocksOf_of_long hx, compressAll_cons]
    simp only [blockSize]
    rw [ih (data.drop 64) (compressBlock (Block.ofList data) s) hd]
    rfl

/-- Steps 3 and 4 on a payload: its whole blocks are compressed, its tail goes to offset 0 (R124, R125). -/
theorem absorbWhole_eq (data : List Byte) (s : State) :
    absorbWhole data s =
      { s with
        words := compressAll s.words (blocksOf data)
        storage := memWrite s.storage 0 (data.drop (64 * (data.length / 64)))
        fill := BitVec.ofNat 6 (data.length % 64) } := by
  have h : (data.drop (64 * (data.length / 64))).length = data.length % 64 := by
    rw [List.length_drop]; omega
  simp only [absorbWhole, blockSize, compressEach_eq, storeTail, h]

end Sys2Proof.Machine
end

