-- ==== Sys2Proof/Laws/Buffer.lean ====
section
/-! SUPPORT. The significant bytes of the buffer and the block it makes when it is completed
(43_update_buffer_manager.md R123, R125). -/

namespace Sys2Proof.Machine

theorem ext_getD {x y : List Byte} (hl : x.length = y.length)
    (h : ∀ i < x.length, x.getD i 0 = y.getD i 0) : x = y := by
  apply List.ext_getElem hl
  intro i h1 h2
  simpa [List.getD, h1, h2] using h i h1

theorem getD_append_left {x y : List Byte} {i : Nat} (h : i < x.length) :
    (x ++ y).getD i 0 = x.getD i 0 := by
  simp [List.getD, List.getElem?_append_left h]

theorem getD_append_right {x y : List Byte} {i : Nat} (h : x.length ≤ i) :
    (x ++ y).getD i 0 = y.getD (i - x.length) 0 := by
  simp [List.getD, List.getElem?_append_right h]

/-- The bytes up to the end of a write that starts where they end. -/
theorem memRead_memWrite_append {m : Memory} {f : Nat} {v : List Byte} (h : f + v.length ≤ 64) :
    memRead (memWrite m f v) 0 (f + v.length) = memRead m 0 f ++ v := by
  refine ext_getD (by simp) fun i hi => ?_
  simp only [length_memRead] at hi
  rw [getD_memRead _ _ _ _ hi, readByte_memWrite_of_fits _ h]
  by_cases hf : i < f
  · rw [if_neg (by omega), getD_append_left (by simpa using hf), getD_memRead _ _ _ _ hf]
  · rw [if_pos (by omega), getD_append_right (by simp; omega)]
    simp

/-- The bytes below a write. -/
theorem memRead_memWrite_below {m : Memory} {f n : Nat} {v : List Byte} (h : n ≤ f) :
    memRead (memWrite m f v) 0 n = memRead m 0 n := by
  refine memRead_congr fun i hi => ?_
  rw [readByte_memWrite, if_neg (by omega)]

/-- A tail written at offset 0. -/
theorem memRead_memWrite_zero {m : Memory} {v : List Byte} (h : v.length ≤ 64) :
    memRead (memWrite m 0 v) 0 v.length = v := by
  have := memRead_memWrite_append (m := m) (f := 0) (v := v) (by omega)
  simpa [memRead] using this

/-- The buffer, once the bytes that were lacking are in. -/
theorem storageBlock_memWrite {m : Memory} {f : Nat} {v : List Byte} (h : f + v.length = 64) :
    storageBlock (memWrite m f v) = Block.ofList (memRead m 0 f ++ v) := by
  have := memRead_memWrite_append (m := m) (f := f) (v := v) (by omega)
  rw [h] at this
  rw [storageBlock, blockSize, this]

/-- One `MemWrite` whose run fits is a write inside the buffer (20_memory.md R42). -/
theorem writesInside_of_memWrite {s t : State} {a : Nat} {v : List Byte} (h : a + v.length ≤ 64)
    (ht : t.storage = memWrite s.storage a v) : WritesInside s t a v :=
  ⟨h, fun x => by rw [ht, readByte_memWrite_of_fits x h]⟩

theorem length_significant (s : State) : s.significant.length = s.fill.toNat := by
  simp [State.significant]

theorem fill_lt (s : State) : s.fill.toNat < 64 := s.fill.isLt

/-- A completed block: the significant bytes and the bytes that were lacking (R123). -/
theorem completeBlock_block {s : State} {data : List Byte}
    (h : s.fill.toNat + data.length = 64) :
    (completeBlock data s).words = compressAll s.words (blocksOf (s.significant ++ data)) := by
  rw [completeBlock_words, storageBlock_memWrite h,
    blocksOf_of_block (by simp [length_significant, h])]
  rfl

/-- Appending fewer bytes than are lacking: the significant bytes grow by them (R123). -/
theorem appendBytes_significant {s : State} {data : List Byte}
    (h : s.fill.toNat + data.length < 64) :
    (appendBytes data s).significant = s.significant ++ data ∧
      (appendBytes data s).fill.toNat = s.fill.toNat + data.length := by
  have hf : (s.fill + BitVec.ofNat 6 data.length).toNat = s.fill.toNat + data.length := by
    simp; omega
  refine ⟨?_, by simpa using hf⟩
  rw [State.significant, appendBytes_fill, appendBytes_storage, hf,
    memRead_memWrite_append (by omega)]
  rfl

/-- Where `UPDATE` branches (R120, R123): an early return, a completed block, or neither. -/
theorem absorb_cases (data : List Byte) (s : State) :
    (0 < s.fill.toNat ∧ s.fill.toNat + data.length < 64 ∧
      absorb data s = appendBytes data (countBytes data.length s)) ∨
    (0 < s.fill.toNat ∧ 64 ≤ s.fill.toNat + data.length ∧
      absorb data s = absorbWhole (data.drop (64 - s.fill.toNat))
        (completeBlock (data.take (64 - s.fill.toNat)) (countBytes data.length s))) ∨
    (s.fill.toNat = 0 ∧ absorb data s = absorbWhole data (countBytes data.length s)) := by
  have hlt := fill_lt s
  by_cases h0 : 0 < s.fill.toNat
  · by_cases h1 : data.length < 64 - s.fill.toNat
    · refine .inl ⟨h0, by omega, ?_⟩
      simp [absorb, absorbCounted, bytesLeft, blockSize, h0, h1]
    · refine .inr (.inl ⟨h0, by omega, ?_⟩)
      simp [absorb, absorbCounted, bytesLeft, blockSize, h0, h1]
  · refine .inr (.inr ⟨by omega, ?_⟩)
    simp [absorb, absorbCounted, h0]

/-- What `UPDATE` never touches, whichever way it goes. -/
theorem absorb_frame (data : List Byte) (s : State) :
    (absorb data s).ready = s.ready ∧ (absorb data s).fault = s.fault ∧
      (absorb data s).hostIn = s.hostIn ∧ (absorb data s).hostOut = s.hostOut ∧
      (absorb data s).alg = s.alg ∧
      (absorb data s).totalLength = s.totalLength + BitVec.ofNat 64 data.length := by
  rcases absorb_cases data s with ⟨_, _, h⟩ | ⟨_, _, h⟩ | ⟨_, h⟩ <;> rw [h]
  · simp
  · simp [absorbWhole_eq, State.alg]
  · simp [absorbWhole_eq, State.alg]

/-- `UPDATE` keeps the canonical form of the buffer. -/
theorem absorb_wf {data : List Byte} {s : State} (hw : Memory.wf s.storage = true) :
    Memory.wf (absorb data s).storage = true := by
  rcases absorb_cases data s with ⟨_, _, h⟩ | ⟨_, _, h⟩ | ⟨_, h⟩ <;> rw [h]
  · simpa using wf_memWrite _ _ hw
  · simpa [absorbWhole_eq] using wf_memWrite _ _ (wf_memWrite _ _ hw)
  · simpa [absorbWhole_eq] using wf_memWrite _ _ hw

/-! ### The finalizer -/

/-- What the finalizer leaves alone before the session is initialised again. -/
theorem finalizeMessage_frame (s : State) :
    (finalizeMessage s).ready = s.ready ∧ (finalizeMessage s).fault = s.fault ∧
      (finalizeMessage s).hostIn = s.hostIn ∧ (finalizeMessage s).hostOut = s.hostOut ∧
      (finalizeMessage s).alg = s.alg := by
  unfold finalizeMessage padFrom extraBlock
  split <;> simp

/-- The length of a digest (44_digest_finalizer.md R142). -/
theorem length_serialise (h : HashState) : (serialise h).length = digestSize h.alg := by
  cases h <;> rfl

end Sys2Proof.Machine
end

