-- ==== Sys2Proof/Laws/Decode.lean ====
section
/-! SUPPORT. The fields of an encoded command word, what taking a payload gives, and what each command word
decodes to. -/

namespace Sys2Proof

/-! ### Fields -/

/-- The field `OP` of a word put together from its two fields (30_encoding.md R61). -/
@[simp] theorem op_append (o : Byte) (l : Dword) : CmdWord.op (o ++ l) = o := by
  unfold CmdWord.op
  ext i hi
  simp only [BitVec.getElem_extractLsb', BitVec.getLsbD_append]
  simp [show ¬ 64 + i < 64 by omega, hi]

/-- The field `LEN` of a word put together from its two fields (30_encoding.md R61). -/
@[simp] theorem len_append (o : Byte) (l : Dword) : CmdWord.len (o ++ l) = l := by
  unfold CmdWord.len
  ext i hi
  simp only [BitVec.getElem_extractLsb', BitVec.getLsbD_append]
  simp [hi]

/-- A command word is its two fields (30_encoding.md R61). -/
theorem append_op_len (c : CmdWord) : (CmdWord.op c ++ CmdWord.len c : BitVec 72) = c := by
  unfold CmdWord.op CmdWord.len
  apply BitVec.eq_of_getLsbD_eq
  intro i hi
  simp only [BitVec.getLsbD_append, BitVec.getLsbD_extractLsb']
  by_cases h : i < 64
  · simp [h]
  · simp [h, show i - 64 < 8 by omega, show 64 + (i - 64) = i by omega]

/-- Two command words with the same fields are the same. -/
theorem cmdWord_ext {c d : CmdWord} (ho : CmdWord.op c = CmdWord.op d)
    (hl : CmdWord.len c = CmdWord.len d) : c = d := by
  rw [← append_op_len c, ← append_op_len d, ho, hl]

@[simp] theorem op_encodeWord (i : Instr) : CmdWord.op (encodeWord i) = i.opcode := op_append _ _

@[simp] theorem len_encodeWord (i : Instr) :
    CmdWord.len (encodeWord i) = BitVec.ofNat 64 i.payload.length := len_append _ _

/-! ### Decoding of a word by its fields -/

theorem decodeWord_update {c : CmdWord} (h : CmdWord.op c = 0x01) :
    decodeWord c = .update (CmdWord.len c) := by simp [decodeWord, h]

theorem decodeWord_init {c : CmdWord} (h : CmdWord.op c = 0x00) (hl : CmdWord.len c = 0) :
    decodeWord c = .init := by simp [decodeWord, h, hl]

theorem decodeWord_digest {c : CmdWord} (h : CmdWord.op c = 0x02) (hl : CmdWord.len c = 0) :
    decodeWord c = .digest := by simp [decodeWord, h, hl]

theorem decodeWord_rdstatus {c : CmdWord} (h : CmdWord.op c = 0x03) (hl : CmdWord.len c = 0) :
    decodeWord c = .rdstatus := by simp [decodeWord, h, hl]

/-- What the fields of a word are, whatever it decodes to: one inversion for the whole decoder. -/
theorem decodeWord_cases (c : CmdWord) :
    (CmdWord.op c = 0x01 ∧ decodeWord c = .update (CmdWord.len c)) ∨
    (CmdWord.op c = 0x00 ∧ CmdWord.len c = 0 ∧ decodeWord c = .init) ∨
    (CmdWord.op c = 0x02 ∧ CmdWord.len c = 0 ∧ decodeWord c = .digest) ∨
    (CmdWord.op c = 0x03 ∧ CmdWord.len c = 0 ∧ decodeWord c = .rdstatus) ∨
    (4 ≤ (CmdWord.op c).toNat ∧ decodeWord c = .illegal .reservedOp) ∨
    ((CmdWord.op c = 0x00 ∨ CmdWord.op c = 0x02 ∨ CmdWord.op c = 0x03) ∧ CmdWord.len c ≠ 0 ∧
      decodeWord c = .illegal .lenNotZero) := by
  generalize ho : CmdWord.op c = o
  generalize hl : CmdWord.len c = l
  by_cases h1 : o = 0x01
  · exact .inl ⟨h1, by simp [decodeWord, ho, hl, h1]⟩
  · by_cases h0 : o = 0x00 ∧ l = 0
    · exact .inr (.inl ⟨h0.1, h0.2, by simp [decodeWord, ho, hl, h0]⟩)
    · by_cases h2 : o = 0x02 ∧ l = 0
      · exact .inr (.inr (.inl ⟨h2.1, h2.2, by simp [decodeWord, ho, hl, h2]⟩))
      · by_cases h3 : o = 0x03 ∧ l = 0
        · exact .inr (.inr (.inr (.inl ⟨h3.1, h3.2, by simp [decodeWord, ho, hl, h3]⟩)))
        · by_cases h4 : 4 ≤ o.toNat
          · refine .inr (.inr (.inr (.inr (.inl ⟨h4, ?_⟩))))
            simp only [decodeWord, ho, hl]
            rw [if_neg h1, if_neg h0, if_neg h2, if_neg h3, if_pos h4]
          · have hcases : o = 0x00 ∨ o = 0x01 ∨ o = 0x02 ∨ o = 0x03 := by
              have : o.toNat = 0 ∨ o.toNat = 1 ∨ o.toNat = 2 ∨ o.toNat = 3 := by omega
              rcases this with h | h | h | h
              · exact .inl (BitVec.eq_of_toNat_eq h)
              · exact .inr (.inl (BitVec.eq_of_toNat_eq h))
              · exact .inr (.inr (.inl (BitVec.eq_of_toNat_eq h)))
              · exact .inr (.inr (.inr (BitVec.eq_of_toNat_eq h)))
            refine .inr (.inr (.inr (.inr (.inr ⟨by tauto, by tauto, ?_⟩))))
            simp only [decodeWord, ho, hl]
            rw [if_neg h1, if_neg h0, if_neg h2, if_neg h3, if_neg h4]

/-! ### Taking a payload (43_update_buffer_manager.md R132) -/

@[simp] theorem takePayload_zero (items : List HostItem) :
    takePayload items 0 = .complete [] items := by cases items <;> simp [takePayload]

/-- All bytes are there. -/
theorem takePayload_data (d : List Byte) (rest : List HostItem) :
    takePayload (d.map .data ++ rest) d.length = .complete d rest := by
  induction d with
  | nil => simp
  | cons b d ih => simp [takePayload, ih, Payload.push]

/-- Fewer bytes than asked for, and then nothing. -/
theorem takePayload_short (d : List Byte) {n : Nat} (h : d.length < n) :
    takePayload (d.map .data) n = .short := by
  induction d generalizing n with
  | nil =>
    obtain ⟨k, rfl⟩ : ∃ k, n = k + 1 := ⟨n - 1, by simp at h; omega⟩
    simp [takePayload]
  | cons b d ih =>
    obtain ⟨k, rfl⟩ : ∃ k, n = k + 1 := ⟨n - 1, by simp at h; omega⟩
    simp [takePayload, ih (by simpa using h), Payload.push]

/-- Fewer bytes than asked for, and then a command word. -/
theorem takePayload_overlapped (d : List Byte) (c : CmdWord) (rest : List HostItem) {n : Nat}
    (h : d.length < n) : takePayload (d.map .data ++ .cmd c :: rest) n = .overlapped := by
  induction d generalizing n with
  | nil =>
    obtain ⟨k, rfl⟩ : ∃ k, n = k + 1 := ⟨n - 1, by simp at h; omega⟩
    simp [takePayload]
  | cons b d ih =>
    obtain ⟨k, rfl⟩ : ∃ k, n = k + 1 := ⟨n - 1, by simp at h; omega⟩
    have := ih (n := k) (by simpa using h)
    simp [takePayload, this, Payload.push]

/-- Fewer bytes than asked for, and then the reset event. -/
theorem takePayload_abandoned (d : List Byte) (rest : List HostItem) {n : Nat}
    (h : d.length < n) : takePayload (d.map .data ++ .reset :: rest) n = .abandoned rest := by
  induction d generalizing n with
  | nil =>
    obtain ⟨k, rfl⟩ : ∃ k, n = k + 1 := ⟨n - 1, by simp at h; omega⟩
    simp [takePayload]
  | cons b d ih =>
    obtain ⟨k, rfl⟩ : ∃ k, n = k + 1 := ⟨n - 1, by simp at h; omega⟩
    have := ih (n := k) (by simpa using h)
    simp [takePayload, this, Payload.push]

/-- A complete payload is the front of what was presented, and has the length asked for. -/
theorem takePayload_complete {items : List HostItem} {n : Nat} {d : List Byte}
    {rest : List HostItem} (h : takePayload items n = .complete d rest) :
    items = d.map .data ++ rest ∧ d.length = n := by
  induction items generalizing n d with
  | nil =>
    cases n with
    | zero => simp at h; simp [h]
    | succ n => simp [takePayload] at h
  | cons it items ih =>
    cases n with
    | zero => simp at h; obtain ⟨rfl, rfl⟩ := h; simp
    | succ n =>
      cases it with
      | cmd c => simp [takePayload] at h
      | reset => simp [takePayload] at h
      | data b =>
        simp only [takePayload] at h
        cases hp : takePayload items n with
        | complete d' r' =>
          simp only [hp, Payload.push, Payload.complete.injEq] at h
          obtain ⟨rfl, rfl⟩ := h
          obtain ⟨h1, h2⟩ := ih hp
          simp [h1, h2]
        | short => simp [hp, Payload.push] at h
        | overlapped => simp [hp, Payload.push] at h
        | abandoned r' => simp [hp, Payload.push] at h

end Sys2Proof
end

