-- ==== Sys2Proof/Laws/Exec.lean ====
section
/-! SUPPORT. What `exec` and `step` can do, said once: the two ways each command goes, and every way a step
ends. -/

namespace Sys2Proof.Machine

/-! ### The meanings -/

theorem exec_init (s : State) : exec .init s = .next (respondOk [] (initSession s)) := rfl

theorem exec_rdstatus (s : State) :
    exec .rdstatus s = .next (respondOk [statusByte s.fault s.ready] s) := rfl

theorem exec_update_of_ready {s : State} (data : List Byte) (h : s.ready = true) :
    exec (.update data) s = .next (respondOk [] (absorb data s)) := by
  simp [exec, execUpdate, h]

theorem exec_update_of_not_ready {s : State} (data : List Byte) (h : s.ready = false) :
    exec (.update data) s = .next (raiseFault .notReady s) := by
  simp [exec, execUpdate, h]

/-- The final compressions leave nothing that `INIT` does not write again (44_digest_finalizer.md R144). -/
theorem initSession_finalizeMessage (s : State) : initSession (finalizeMessage s) = initSession s := by
  obtain ⟨_, hf, hi, ho, ha⟩ := finalizeMessage_frame s
  simp only [initSession, hf, hi, ho, ha]

theorem exec_digest_of_ready {s : State} (h : s.ready = true) :
    exec .digest s = .next (respondOk (serialise (finalizeMessage s).words) (initSession s)) := by
  simp [exec, execDigest, h, initSession_finalizeMessage]

theorem exec_digest_of_not_ready {s : State} (h : s.ready = false) :
    exec .digest s = .next (raiseFault .notReady s) := by
  simp [exec, execDigest, h]

/-- A recorded fault stays. -/
theorem recordFault_of_ne_zero {f : BitVec 2} (code : FaultCode) (h : f ≠ 0) :
    recordFault code f = f := if_neg h

/-- The first fault is recorded under its own code. -/
theorem recordFault_zero (code : FaultCode) : recordFault code 0 = faultRecord code := if_pos rfl

/-! ### The step -/

/-- Every way a step ends. -/
theorem step_cases (s : State) :
    (∃ i rest, decode s.hostIn = .instr i rest ∧ step s = exec i (consumeTo rest s)) ∨
    (∃ why rest, decode s.hostIn = .illegal why rest ∧
      step s = .next (raiseFault .illegalCmd (consumeTo rest s))) ∨
    (∃ rest, decode s.hostIn = .reset rest ∧ step s = .next (hardwareReset (consumeTo rest s))) ∨
    (decode s.hostIn = .idle ∧ step s = .next s) ∨
    (decode s.hostIn = .payloadAwaited ∧ step s = .fault .payloadAwaited) ∨
    (decode s.hostIn = .overlappingCommand ∧ step s = .refused .overlappingCommand) ∨
    (decode s.hostIn = .surplusPayload ∧ step s = .refused .surplusPayload) := by
  cases h : decode s.hostIn <;> simp [step, fetch, h]

/-! ### Runs -/

@[simp] theorem execAll_nil (s : State) : execAll [] s = .next s := rfl

theorem execAll_cons {i : Instr} {s t : State} (is : List Instr) (h : exec i s = .next t) :
    execAll (i :: is) s = execAll is t := by
  simp [execAll, h]

theorem execAll_append {is : List Instr} {s t : State} (js : List Instr)
    (h : execAll is s = .next t) : execAll (is ++ js) s = execAll js t := by
  induction is generalizing s with
  | nil => simp at h; simp [h]
  | cons i is ih =>
    simp only [List.cons_append, execAll] at h ⊢
    cases hi : exec i s with
    | next u => rw [hi] at h; exact ih h
    | fault r => rw [hi] at h; cases h
    | refused r => rw [hi] at h; cases h

/-! ### The footer and the padding -/

@[simp] theorem length_zeroBytes (n : Nat) : (zeroBytes n).length = n := by simp [zeroBytes]

@[simp] theorem length_enc64 (o : ByteOrder) (v : Dword) : (enc64 o v).length = 8 := by
  cases o <;> rfl

/-- The footer the finalizer writes is the footer of `total_length` bytes. -/
theorem enc64_shl64x3 (alg : Alg) (v : Dword) :
    enc64 (byteOrder alg) (shl64x3 v) = lengthFooter alg v.toNat := by
  refine congrArg (enc64 (byteOrder alg)) (BitVec.eq_of_toNat_eq ?_)
  simp [shl64x3, Nat.shiftLeft_eq, Nat.mul_comm]

end Sys2Proof.Machine
end

