-- ==== Sys2Proof/Laws/PerInstr.lean ====
section
/-! SUPPORT. One family of statements per instruction: the fields of its encoded command word
(30_encoding.md R61, R62). -/

namespace Sys2Proof.Laws.WordFields

/-- The command word of an instruction carries its opcode in `OP` and, where it is well formed, the number of its
payload bytes in `LEN`. -/
def Statement (i : Instr) : Prop :=
  CmdWord.op (encodeWord i) = i.opcode ∧
    (i.wellFormed = true → (CmdWord.len (encodeWord i)).toNat = i.payload.length)

theorem init : Statement .init := by simp [Statement, Instr.payload]

theorem update (data : List Byte) : Statement (.update data) := by
  refine ⟨op_encodeWord _, fun h => ?_⟩
  have hlt : data.length < 2 ^ 64 := of_decide_eq_true h
  rw [len_encodeWord, BitVec.toNat_ofNat]
  exact Nat.mod_eq_of_lt hlt

theorem digest : Statement .digest := by simp [Statement, Instr.payload]

theorem rdstatus : Statement .rdstatus := by simp [Statement, Instr.payload]

end Sys2Proof.Laws.WordFields
end

