-- ==== Sys2Proof/Tests/Slice0.lean ====
section
/-! SUPPORT. Tests: expected results from 95_test_vectors.md and from the spec's tables, never from the model. Then the
witnesses: for every statement with hypotheses, a state and operands that meet them. -/

namespace Sys2Proof.Tests

open Sys2Proof Sys2Proof.Machine

/-! ### Helpers -/

/-- A `Ready` session of the instance of `h`, with these words and these significant bytes. -/
def session (h : HashState) (bytes : List Byte) : State :=
  { State.resetFor h.alg with
    words := h
    storage := Memory.cells 0 bytes
    fill := BitVec.ofNat 6 bytes.length
    totalLength := BitVec.ofNat 64 bytes.length
    ready := true }

/-- `s` with this input from the host. -/
def presented (items : List HostItem) (s : State) : State := { s with hostIn := items }

/-- What `f` says of the next state; `none` where there is none. -/
def fieldOf {α : Type} (f : State → α) : Host.Outcome State Fault Refusal → Option α
  | .next t => some (f t)
  | .fault _ => none
  | .refused _ => none

/-- The bytes `00 01 02 …`, so many. -/
def counting (n : Nat) : List Byte := (List.range n).map (BitVec.ofNat 8)

/-- A digest as the number its hex string writes. -/
def asNumber (bs : List Byte) : Nat := bs.foldl (fun acc b => 256 * acc + b.toNat) 0

/-- The digest `DIGEST` returns from a state, as a number. -/
def digestOf (s : State) : Option Nat :=
  (fieldOf (fun t => t.hostOut.map fun r => asNumber r.result) (exec .digest s)).bind List.head?

/-- A line of text. -/
def text (s : String) : List Char := s.toList

/-! ### Well-formed instructions -/

/-- One byte more than `LEN` can count is refused (R63). -/
theorem test_wellFormed_refuses_too_long_payload :
    (Instr.update (List.replicate (2 ^ 64) 0)).wellFormed = false := by
  rw [Instr.wellFormed, List.length_replicate]; exact decide_eq_false (Nat.lt_irrefl _)

theorem test_wellFormed_accepts : Instr.init.wellFormed = true ∧ (Instr.update []).wellFormed = true ∧
    (Instr.update [0x61, 0x62]).wellFormed = true ∧ Instr.digest.wellFormed = true ∧
    Instr.rdstatus.wellFormed = true := by decide

/-! ### Decoding: words written out from R61, R62, `OP` then `LEN` -/

theorem test_decode_init : decode [.cmd 0x000000000000000000] = .instr .init [] := by decide

theorem test_decode_update : decode [.cmd 0x010000000000000003, .data 0x61, .data 0x62, .data 0x63] =
    .instr (.update [0x61, 0x62, 0x63]) [] := by decide

theorem test_decode_digest : decode [.cmd 0x020000000000000000, .data 0x07] =
    .instr .digest [.data 0x07] := by decide

theorem test_decode_rdstatus : decode [.cmd 0x030000000000000000] = .instr .rdstatus [] := by decide

/-- V67, the rows whose payload is too long to write out. -/
theorem test_decode_long_updates :
    decodeWord 0x018000000000000000 = .update 0x8000000000000000 ∧
      decodeWord 0x01ffffffffffffffff = .update 0xffffffffffffffff ∧
      decodeWord 0x010000000000000000 = .update 0 := by decide

/-- V67, the illegal rows, and the last opcode. -/
theorem test_decode_illegal :
    decodeWord 0x000000000000000001 = .illegal .lenNotZero ∧
      decodeWord 0x020000000000000001 = .illegal .lenNotZero ∧
      decodeWord 0x030000000100000000 = .illegal .lenNotZero ∧
      decodeWord 0x040000000000000000 = .illegal .reservedOp ∧
      decodeWord 0x800000000000000000 = .illegal .reservedOp ∧
      decodeWord 0xff0000000000000000 = .illegal .reservedOp := by decide

/-- The encoder against the same words. -/
theorem test_encode :
    encodeWord .init = 0x000000000000000000 ∧ encodeWord (.update (counting 63)) = 0x01000000000000003f ∧
      encodeWord .digest = 0x020000000000000000 ∧ encodeWord .rdstatus = 0x030000000000000000 := by
  decide

theorem test_decodeTableWord :
    decodeTableWord 72 0x000000000000000000 = some .init ∧
      decodeTableWord 72 0x010000000000000002 = some (.update [0, 0]) ∧
      decodeTableWord 72 0x020000000000000000 = some .digest ∧
      decodeTableWord 72 0x030000000000000000 = some .rdstatus ∧
      decodeTableWord 72 0x050000000000000000 = none := by decide

/-- A word presented after reset is the one the step runs. -/
theorem test_withFetchWord :
    fieldOf id (step (State.reset.withFetchWord 72 0x030000000000000000)) =
      some { State.reset with hostOut := [⟨0x00, [0x00]⟩] } := by decide

/-! ### Tables and operations -/

/-- The first 64 primes. -/
def primes : List Nat :=
  (List.range 312).filter fun n => 2 ≤ n ∧ (List.range n).all fun d => d < 2 || n % d != 0

/-- R93: each constant is the first 32 bits of the fractional part of the cube root of a prime; the integer part
of a root is below 7. -/
theorem test_sha256_constants_are_cube_roots : primes.length = 64 ∧
    (List.zip primes sha256K).all (fun (p, k) => (List.range 7).any fun c =>
      decide ((c * 2 ^ 32 + k.toNat) ^ 3 ≤ p * 2 ^ 96 ∧ p * 2 ^ 96 < (c * 2 ^ 32 + k.toNat + 1) ^ 3)) =
        true := by
  decide +kernel

/-- R98: each initial word is the first 32 bits of the fractional part of the square root of a prime. -/
theorem test_sha256_initial_words_are_square_roots :
    (List.zip primes (iv .sha256s).toList).all (fun (p, k) => (List.range 5).any fun c =>
      decide ((c * 2 ^ 32 + k.toNat) ^ 2 ≤ p * 2 ^ 64 ∧ p * 2 ^ 64 < (c * 2 ^ 32 + k.toNat + 1) ^ 2)) =
        true := by
  decide +kernel

/-- R107, the index function written out. -/
theorem test_md5_index : (List.range 64).map md5Index =
    [0, 1, 2, 3, 4, 5, 6, 7, 8, 9, 10, 11, 12, 13, 14, 15]
    ++ [1, 6, 11, 0, 5, 10, 15, 4, 9, 14, 3, 8, 13, 2, 7, 12]
    ++ [5, 8, 11, 14, 1, 4, 7, 10, 13, 0, 3, 6, 9, 12, 15, 2]
    ++ [0, 7, 14, 5, 12, 3, 10, 1, 8, 15, 6, 13, 4, 11, 2, 9] := by decide

theorem test_tables_have_64_entries :
    sha256K.length = 64 ∧ md5K.length = 64 ∧ md5S.length = 64 := by decide

/-- V13 and V15. -/
theorem test_compress_sha256s :
    compressSha256s ivSha256s (Block.ofList (counting 64)) =
      ⟨0xfc99a2df, 0x88f42a7a, 0x7bb9d180, 0x33cdc6a2, 0x0256755f, 0x9d5b9a50, 0x44a9cc31, 0x5abe84a7⟩ ∧
    compressSha256s ⟨0xffffffff, 0xffffffff, 0xffffffff, 0xffffffff, 0xffffffff, 0xffffffff, 0xffffffff,
        0xffffffff⟩ (Block.ofList (List.replicate 64 0xff)) =
      ⟨0x0598127a, 0xaf11706e, 0x77401fff, 0xd730c549, 0x0b84c867, 0xa98c6ca3, 0xd7f3c0f9, 0x06a78b79⟩ := by
  decide +kernel

/-- V11: the working registers after round 17, the second round that updates the window. -/
theorem test_sha256_rounds :
    sha256Working 18 ivSha256s
        (Block.ofList ([0x61, 0x62, 0x63, 0x80] ++ List.replicate 59 0 ++ [0x18])) =
      ⟨0xc2fbd9d1, 0x21da9a9b, 0xb0fa238e, 0xc0645fde, 0x846ee454, 0x8034229c, 0x07590dcd, 0x0b92f20c⟩ := by
  decide +kernel

/-- V23 and V25. -/
theorem test_compress_md5s :
    compressMd5s ivMd5s (Block.ofList (counting 64)) = ⟨0x9144d9ca, 0xd901e4c9, 0x72fc5b38, 0x625ff51e⟩ ∧
    compressMd5s ⟨0xffffffff, 0xffffffff, 0xffffffff, 0xffffffff⟩ (Block.ofList (List.replicate 64 0xff)) =
      ⟨0x6cba9129, 0x29ffd12a, 0x8b9bb7d3, 0xa9a0a3c1⟩ := by
  decide +kernel

/-- V21: the working registers after round 17, the second of phase 1. -/
theorem test_md5_rounds :
    md5Working 18 ivMd5s
        (Block.ofList ([0x61, 0x62, 0x63, 0x80] ++ List.replicate 52 0 ++ [0x18] ++ List.replicate 7 0)) =
      ⟨0xe396856b, 0x4a1d804e, 0x3e9e9126, 0x72aff2e0⟩ := by
  decide +kernel

/-- A write clears, adds and keeps cells, and the form stays canonical. -/
theorem test_memWrite :
    memWrite [(1, 0x11), (2, 0x22), (5, 0x55)] 2 [0x00, 0x33, 0x44] =
      [(1, 0x11), (3, 0x33), (4, 0x44), (5, 0x55)] ∧
    memRead [(1, 0x11), (3, 0x33)] 0 4 = [0x00, 0x11, 0x00, 0x33] ∧
    Memory.wf [(3, 0x33), (1, 0x11)] = false ∧ Memory.wf [(64, 0x11)] = false ∧
    Memory.wf [(1, 0x00)] = false := by decide

/-! ### The instructions -/

/-- V60: `RDSTATUS` after hardware reset, either instance. -/
theorem test_rdstatus_after_reset :
    fieldOf State.hostOut (exec .rdstatus (State.resetFor .md5s)) = some [⟨0x00, [0x00]⟩] ∧
      fieldOf State.hostOut (exec .rdstatus (State.resetFor .sha256s)) = some [⟨0x00, [0x00]⟩] := by
  decide

/-- V63, V64: `READY` is bit 0 and `FAULT` bits 2:1. -/
theorem test_rdstatus_bits :
    fieldOf State.hostOut (exec .rdstatus { session (iv .md5s) [] with fault := 1 }) =
        some [⟨0x00, [0x03]⟩] ∧
      fieldOf State.hostOut (exec .rdstatus { session (iv .md5s) [] with fault := 2 }) =
        some [⟨0x00, [0x05]⟩] := by decide

/-- V4, V63: `INIT` after reset and a recorded fault. -/
theorem test_init_after_fault :
    fieldOf id (exec .init { State.resetFor .md5s with fault := 1 }) =
      some { session (.md5s ⟨0x67452301, 0xefcdab89, 0x98badcfe, 0x10325476⟩) [] with
        fault := 1, hostOut := [⟨0x00, []⟩] } := by decide

/-- V68: `INIT` while a message is in progress. -/
theorem test_init_mid_message :
    fieldOf id (exec .init (session (.md5s ⟨1, 2, 3, 4⟩) [0x61, 0x62, 0x63])) =
      some { session (iv .md5s) [] with hostOut := [⟨0x00, []⟩] } := by decide

/-- V37: the last lacking byte completes the block, and the counter wraps. -/
theorem test_update_completes_block_and_wraps :
    fieldOf (fun t => (t.words, t.fill, t.totalLength, t.fault))
        (exec (.update [0x61]) { session (iv .sha256s) (List.replicate 63 0x61) with
          totalLength := 0xffffffffffffffff }) =
      some (.sha256s ⟨0xdf5bb81c, 0xe81e0626, 0xfb45a894, 0x4fd40f31, 0xb25e6816, 0xd6d499c1, 0xab904929,
        0x00635e66⟩, 0, 0, 0) := by
  decide +kernel

/-- V39: 100 bytes are in; 30 more complete a block, and two bytes go to offset 0 over what it held. -/
theorem test_update_leaves_tail_over_stale_bytes :
    fieldOf (fun t => (t.words, t.fill, t.totalLength, memRead t.storage 0 64))
        (exec (.update ((counting 130).drop 100))
          { session (.md5s ⟨0x9144d9ca, 0xd901e4c9, 0x72fc5b38, 0x625ff51e⟩)
              ((counting 100).drop 64) with totalLength := 100 }) =
      some (.md5s ⟨0xb85e4fd4, 0xb03ccf42, 0xfc8d902d, 0x0e1b9628⟩, 2, 130,
        [0x80, 0x81] ++ (counting 128).drop 66) := by
  decide +kernel

/-- V3 and the last line of V49: the reference message of 56 bytes, two final blocks, either instance. -/
theorem test_digest_reference_message :
    digestOf (session (iv .sha256s)
        ((text "abcdbcdecdefdefgefghfghighijhijkijkljklmklmnlmnomnopnopq").map fun c =>
          BitVec.ofNat 8 c.toNat)) =
      some 0x248d6a61d20638b8e5c026930c3e6039a33ce45964ff2167f6ecedd419db06c1 ∧
    digestOf (session (iv .md5s)
        ((text "abcdbcdecdefdefgefghfghighijhijkijkljklmklmnlmnomnopnopq").map fun c =>
          BitVec.ofNat 8 c.toNat)) =
      some 0x8215ef0796a20bcaaae116d3876c664a := by
  decide +kernel

/-- V51: the bit count wraps, with data in the buffer; V41: the longest message with one final block. -/
theorem test_digest_one_block :
    digestOf { session (iv .sha256s) [0x61, 0x62, 0x63] with totalLength := 0x2000000000000003 } =
      some 0xba7816bf8f01cfea414140de5dae2223b00361a396177a9cb410ff61f20015ad ∧
    digestOf (session (iv .md5s) (List.replicate 55 0x61)) =
      some 0xef1772b6dff9a122358552954ad0df65 := by
  decide +kernel

/-! ### Faults and reset -/

/-- V61, V65: not ready, the payload is taken and discarded; an illegal word has priority and keeps the
first code. -/
theorem test_faults :
    fieldOf id (step (presented [.cmd 0x010000000000000001, .data 0x78, .cmd 0x020000000000000000]
        (State.resetFor .md5s))) =
      some { State.resetFor .md5s with
        fault := 1, hostIn := [.cmd 0x020000000000000000], hostOut := [⟨0x01, []⟩] } ∧
    fieldOf id (step (presented [.cmd 0x020000000000000001] (State.resetFor .md5s))) =
      some { State.resetFor .md5s with fault := 2, hostOut := [⟨0x02, []⟩] } ∧
    fieldOf id (step (presented [.cmd 0xff0000000000000000] { State.resetFor .md5s with fault := 1 })) =
      some { State.resetFor .md5s with fault := 1, hostOut := [⟨0x02, []⟩] } := by decide

/-- Hardware reset, between commands and inside a payload (70_reset_and_hazards.md R185, R186). -/
theorem test_hardware_reset :
    fieldOf (fun t => (t.ready, t.fault, t.hostIn, t.hostOut))
        (step (presented [.reset] { session (iv .md5s) [0x61] with fault := 2 })) =
      some (false, 0, [], []) ∧
    fieldOf (fun t => (t.ready, t.fault, t.hostIn, t.hostOut))
        (step (presented [.cmd 0x010000000000000002, .data 0x61, .reset, .cmd 0]
          (session (iv .md5s) []))) =
      some (false, 0, [.cmd 0], []) := by decide

/-! ### The text form -/

/-- R71, R72: a comment, a mnemonic in capitals, the items of `<bytes>`, a raw word, the pseudo-commands. -/
theorem test_assembler :
    parseLine (text "  INIT ; start") = some (.command .init) ∧
    parseLine (text "update x\"6162\" ++ rep(63, 2) ++ \"d;\"") =
      some (.command (.update [0x61, 0x62, 0x63, 0x63, 0x64, 0x3b])) ∧
    parseLine (text ".cmd 0x040000000000000000") = some (.raw 0x040000000000000000) ∧
    parseLine (text "hash \"abc\"") = some (.pseudo (.hash [0x61, 0x62, 0x63])) ∧
    parseLine (text "absorb 61") = some (.pseudo (.absorb 0x61)) ∧
    parseLine (text "digest 1") = none := by decide

/-- P1: `hash "abc"` is the three transactions of its expansion. -/
theorem test_assemble_program :
    assembleProgram [text "hash \"abc\"", text "; done", text "rdstatus"] =
      some [.cmd 0x000000000000000000, .cmd 0x010000000000000003, .data 0x61, .data 0x62, .data 0x63,
        .cmd 0x020000000000000000, .cmd 0x030000000000000000] := by decide

/-! ### Witnesses: states and operands that meet the hypotheses of the statements -/

theorem witness_DecodeOfEncodeGivesTheInstruction :
    (Instr.update [0x61, 0xff]).wellFormed = true ∧ Instr.init.wellFormed = true := by decide

theorem witness_DecodedInputIsTheEncoding :
    decode [.cmd 0x010000000000000001, .data 0x61, .reset] = .instr (.update [0x61]) [.reset] := by
  decide

theorem witness_CommandWordsMatchTheOpcodeTable :
    decodeWord 0x01ffffffffffffffff = .update 0xffffffffffffffff := by decide

theorem witness_StepRunsTheDecodedInstruction :
    decode (State.reset.withFetchWord 72 0x020000000000000000).hostIn = .instr .digest [] := by decide

/-- Both clauses, at the first and last reserved opcode and at the least and greatest `LEN`. -/
theorem witness_IllegalWordRaisesIllegalCmd :
    (presented [.cmd 0x040000000000000000, .reset] State.reset).hostIn =
        .cmd 0x040000000000000000 :: [.reset] ∧
      4 ≤ ((0x040000000000000000 : CmdWord).extractLsb' 64 8).toNat ∧
      4 ≤ ((0xffffffffffffffffff : CmdWord).extractLsb' 64 8).toNat ∧
      ((0x000000000000000001 : CmdWord).extractLsb' 64 8 = 0x00 ∧
        (0x000000000000000001 : CmdWord).extractLsb' 0 64 ≠ 0) ∧
      ((0x02ffffffffffffffff : CmdWord).extractLsb' 64 8 = 0x02 ∧
        (0x02ffffffffffffffff : CmdWord).extractLsb' 0 64 ≠ 0) ∧
      ((0x038000000000000000 : CmdWord).extractLsb' 64 8 = 0x03 ∧
        (0x038000000000000000 : CmdWord).extractLsb' 0 64 ≠ 0) ∧
      ¬ (4 ≤ ((0x01ffffffffffffffff : CmdWord).extractLsb' 64 8).toNat ∨
        (((0x01ffffffffffffffff : CmdWord).extractLsb' 64 8 = 0x00 ∨
          (0x01ffffffffffffffff : CmdWord).extractLsb' 64 8 = 0x02 ∨
          (0x01ffffffffffffffff : CmdWord).extractLsb' 64 8 = 0x03) ∧
          (0x01ffffffffffffffff : CmdWord).extractLsb' 0 64 ≠ 0)) := by decide

/-- Each clause: with no byte and with one, refused `DIGEST`, `INIT` and `RDSTATUS` while not ready. -/
theorem witness_NotReadyRefusesUpdateAndDigest :
    State.reset.ready = false ∧ ([] : List Byte).length < 2 ^ 64 ∧ ([0x61] : List Byte).length < 2 ^ 64 ∧
      (presented (encode (.update []) ++ []) State.reset).hostIn = encode (.update []) ++ [] ∧
      (presented (encode (.update [0x61]) ++ [.reset]) State.reset).hostIn =
        encode (.update [0x61]) ++ [.reset] ∧
      (presented (encode .digest ++ []) State.reset).hostIn = encode .digest ++ [] ∧
      (presented (encode .init ++ []) State.reset).hostIn = encode .init ++ [] ∧
      (presented (encode .rdstatus ++ []) State.reset).hostIn = encode .rdstatus ++ [] := by decide

/-- Each clause, with no payload byte and with all but one. -/
theorem witness_NoCommandRunsWithoutItsWholeTransaction :
    State.reset.hostIn = [] ∧ ([] : List Byte).length < (1 : Dword).toNat ∧
      ([0x61] : List Byte).length < (2 : Dword).toNat ∧
      (presented (.cmd ((0x01 : Byte) ++ (2 : Dword)) :: [0x61].map .data) State.reset).hostIn =
        .cmd ((0x01 : Byte) ++ (2 : Dword)) :: [0x61].map .data ∧
      (presented (.cmd ((0x01 : Byte) ++ (1 : Dword)) :: ([].map .data ++ .cmd 0 :: []))
        State.reset).hostIn = .cmd ((0x01 : Byte) ++ (1 : Dword)) :: ([].map .data ++ .cmd 0 :: []) ∧
      (presented (.data 0x61 :: []) State.reset).hostIn = .data 0x61 :: [] := by decide

theorem witness_HardwareResetClearsReadyAndFault :
    (presented (.reset :: []) (session (iv .md5s) [0x61])).hostIn = .reset :: [] := by decide

theorem witness_ResetAbandonsAnUnfinishedUpdate :
    ([0x61] : List Byte).length < (2 : Dword).toNat ∧
      (presented (.cmd ((0x01 : Byte) ++ (2 : Dword)) :: ([0x61].map .data ++ .reset :: []))
        State.reset).hostIn =
        .cmd ((0x01 : Byte) ++ (2 : Dword)) :: ([0x61].map .data ++ .reset :: []) := by decide

/-- Both cases: the command, in a state that is not ready, and the one that ends `DIGEST`. -/
theorem witness_InitSetsTheSession :
    (Instr.init = .init ∨ (Instr.init = .digest ∧ State.reset.ready = true)) ∧
      (Instr.digest = .init ∨ (Instr.digest = .digest ∧ (session (iv .md5s) [0x61]).ready = true)) :=
  ⟨.inl rfl, .inr ⟨rfl, rfl⟩⟩

theorem witness_RdstatusReturnsStatus : State.reset.fault ≠ 3 := by decide

/-- `ready = 1` for either instance, with an empty and a full partial block: the hypothesis of `UpdateHasItsClosedForm`,
`EmptyUpdateChangesNothing`, `DigestCompressesTheFinalBlocks`, `DigestReinitialisesTheSession`, `EmptyMessageDigest` and
`UpdateEachHasTheEffectOfUpdate`. -/
theorem witness_Ready :
    (session (iv .sha256s) []).ready = true ∧ (session (iv .md5s) (List.replicate 63 0x61)).ready = true := by
  decide

/-- `UpdateLeavesTheseBytes`: each branch has a case, at the values where they meet. -/
theorem witness_UpdateLeavesTheseBytes :
    (session (iv .md5s) [0x61]).ready = true ∧
      ((session (iv .md5s) [0x61]).fill.toNat + (List.replicate 62 (0 : Byte)).length < 64) ∧
      ¬ ((session (iv .md5s) [0x61]).fill.toNat + (List.replicate 63 (0 : Byte)).length < 64) ∧
      (0 < ((session (iv .md5s) [0x61]).fill.toNat + (List.replicate 64 (0 : Byte)).length) % 64) := by
  decide

theorem witness_DigestBytesAreTheWordsInOrder :
    (session (iv .sha256s) [0x61]).ready = true ∧ 7 < numWords .sha256s ∧ 3 < numWords .md5s := by decide

/-- A session that has accepted one byte, and one that has accepted none (`CommandsKeepTheAcceptedMessage`,
`DigestOfTheAcceptedMessage`). -/
theorem witness_Accepted :
    (session (iv .md5s) [0x61]).Accepted [0x61] ∧ (session (iv .sha256s) []).Accepted [] :=
  ⟨⟨rfl, rfl, rfl, rfl, rfl⟩, ⟨rfl, rfl, rfl, rfl, rfl⟩⟩

/-- The executions `CommandsKeepTheAcceptedMessage` speaks of exist. -/
theorem witness_CommandsKeepTheAcceptedMessage :
    ∃ t u v w, exec .init (session (iv .md5s) [0x61]) = .next t ∧
      exec (.update [0x62]) (session (iv .md5s) [0x61]) = .next u ∧
      exec .digest (session (iv .md5s) [0x61]) = .next v ∧
      exec .rdstatus (session (iv .md5s) [0x61]) = .next w :=
  ⟨_, _, _, _, exec_init _, exec_update_of_ready _ rfl, exec_digest_of_ready rfl, exec_rdstatus _⟩

theorem witness_ChunkingInvariance :
    (session (iv .md5s) [0x61]).ready = true ∧
      ([[0x01, 0x02], [], [0x03]] : List (List Byte)).flatten = [[0x01], [0x02, 0x03]].flatten := by decide

theorem witness_DigestLeavesAFreshSession :
    (session (iv .sha256s) [0x61]).ready = true ∧
      Instr.rdstatus ∉ [Instr.update [0x62], .digest, .init] := by decide

theorem witness_SessionStateMachine :
    (presented (.cmd 0x040000000000000000 :: []) State.reset).hostIn = .cmd 0x040000000000000000 :: [] ∧
      decodeWord 0x040000000000000000 = .illegal .reservedOp ∧
      decodeWord 0x000000000000000001 = .illegal .lenNotZero ∧
      (presented (.reset :: []) State.reset).hostIn = .reset :: [] := by decide

/-- A step with no reset in it, from a `Ready` state and with a fault recorded; and one that records its own: the
hypotheses of the second clause of `HardwareResetClearsReadyAndFault` and of `FaultKeepsTheFirstCode`. -/
theorem witness_FaultKeepsTheFirstCode :
    (∃ t, step (presented (encode .rdstatus) { session (iv .md5s) [] with fault := 2 }) = .next t) ∧
      (∀ rest, decode (encode .rdstatus) ≠ .reset rest) ∧
      ({ session (iv .md5s) [] with fault := 2 } : State).ready = true ∧
      ({ session (iv .md5s) [] with fault := 2 } : State).fault ≠ 0 ∧
      fieldOf State.fault (step (presented (encode .digest) State.reset)) = some 1 ∧
      State.reset.fault ≠ 1 := by
  refine ⟨⟨_, rfl⟩, ?_, rfl, by decide, by decide, by decide⟩
  intro rest h
  have hd : decode (encode .rdstatus) = .instr .rdstatus [] := by decide
  rw [hd] at h
  cases h

theorem witness_StepKeepsTheStateSound :
    ∃ t, (presented (encode .init) (session (iv .md5s) [0x61])).Inv ∧
      step (presented (encode .init) (session (iv .md5s) [0x61])) = .next t :=
  ⟨_, ⟨by decide, by decide⟩, rfl⟩

theorem witness_StepKeepsFillTiedToTotalLength :
    ∃ t, (presented (encode .rdstatus) (session (iv .md5s) [0x61])).CountInv ∧
      step (presented (encode .rdstatus) (session (iv .md5s) [0x61])) = .next t :=
  ⟨_, fun _ => rfl, rfl⟩

/-- Two different states that cannot be told apart: by a stale byte, and before the first `INIT`. -/
theorem witness_StepKeepsObservationalEquivalence :
    ObsEq (session (iv .md5s) [0x61]) { session (iv .md5s) [0x61] with storage := [(0, 0x61), (5, 0x07)] } ∧
      session (iv .md5s) [0x61] ≠
        { session (iv .md5s) [0x61] with storage := [(0, 0x61), (5, 0x07)] } ∧
      ObsEq (State.resetFor .md5s) { State.resetFor .md5s with fill := 9 } ∧
      State.resetFor .md5s ≠ { State.resetFor .md5s with fill := 9 } := by
  refine ⟨⟨rfl, rfl, rfl, rfl, rfl, fun _ => ⟨rfl, rfl, rfl, by decide⟩⟩, by decide,
    ⟨rfl, rfl, rfl, rfl, rfl, fun h => by cases h⟩, by decide⟩

/-- The ends of the ranges in `BlockBytesAreBytesOfWords`, `ShiftAndRotateFormulas` and
`BitCountWrapsAtTwoToTheSixtyFour`. -/
theorem witness_operand_ranges :
    63 < 64 ∧ 0 < 1 ∧ 31 < 32 ∧ (0x1fffffffffffffff : Dword).toNat < 2 ^ 61 := by decide

/-- Each clause at the values where they meet: an empty buffer; one byte short of a block and exactly a block;
one final block and two. -/
theorem witness_EveryWriteStaysInTheBuffer :
    (session (iv .md5s) []).ready = true ∧ (session (iv .md5s) []).fill.toNat = 0 ∧
      (session (iv .md5s) [0x61]).ready = true ∧ 0 < (session (iv .md5s) [0x61]).fill.toNat ∧
      (session (iv .md5s) [0x61]).fill.toNat + (List.replicate 62 (0 : Byte)).length < 64 ∧
      64 ≤ (session (iv .md5s) [0x61]).fill.toNat + (List.replicate 63 (0 : Byte)).length ∧
      (session (iv .md5s) (List.replicate 55 0x61)).fill.toNat ≤ 55 ∧
      56 ≤ (session (iv .md5s) (List.replicate 56 0x61)).fill.toNat ∧
      56 ≤ (session (iv .md5s) (List.replicate 63 0x61)).fill.toNat := by decide

end Sys2Proof.Tests
end

section
/-! PROOF of the byte-order primitives (00_scope.md R12): one value lemma per parser, one slice lemma per
encoder, and the obligation assembled from them. -/

namespace Sys2Proof.Machine

/-- A byte appended below a bit vector: the upper part moves up by one byte. -/
theorem toNat_append_byte {n : Nat} (x : BitVec n) (b : Byte) :
    (x ++ b).toNat = x.toNat * 2 ^ 8 + b.toNat := by
  rw [BitVec.toNat_append, ← Nat.shiftLeft_add_eq_or_of_lt b.isLt, Nat.shiftLeft_eq]

theorem toNat_parse32be (b0 b1 b2 b3 : Byte) :
    (parse32be b0 b1 b2 b3).toNat =
      b0.toNat * 2 ^ 24 + b1.toNat * 2 ^ 16 + b2.toNat * 2 ^ 8 + b3.toNat := by
  simp only [parse32be, toNat_append_byte]
  omega

/-- The two parsers read the same bytes in opposite orders. -/
theorem parse32le_eq_parse32be_reversed (b0 b1 b2 b3 : Byte) :
    parse32le b0 b1 b2 b3 = parse32be b3 b2 b1 b0 := rfl

theorem toNat_parse32le (b0 b1 b2 b3 : Byte) :
    (parse32le b0 b1 b2 b3).toNat =
      b0.toNat + b1.toNat * 2 ^ 8 + b2.toNat * 2 ^ 16 + b3.toNat * 2 ^ 24 := by
  rw [parse32le_eq_parse32be_reversed, toNat_parse32be]
  omega

/-- The bytes of a word in big-endian sequence order, as bit slices. -/
theorem enc32_be (w : Word) :
    enc32 .be w =
      [w.extractLsb 31 24, w.extractLsb 23 16, w.extractLsb 15 8, w.extractLsb 7 0] := rfl

/-- The bytes of a 64-bit value in big-endian sequence order, as bit slices. -/
theorem enc64_be (v : Dword) :
    enc64 .be v =
      [v.extractLsb 63 56, v.extractLsb 55 48, v.extractLsb 47 40, v.extractLsb 39 32,
        v.extractLsb 31 24, v.extractLsb 23 16, v.extractLsb 15 8, v.extractLsb 7 0] := rfl

/-- The little-endian bytes of a word are its big-endian bytes in reverse. -/
theorem enc32_le (w : Word) : enc32 .le w = (enc32 .be w).reverse := rfl

/-- The little-endian bytes of a 64-bit value are its big-endian bytes in reverse. -/
theorem enc64_le (v : Dword) : enc64 .le v = (enc64 .be v).reverse := rfl

/-- Settles O37: the parsers by the value of a byte appended below a vector, the encoders by their slices, each
little-endian form as the reverse of the big-endian one. -/
theorem byteOrderPrimitives : Obligations.ByteOrderPrimitives := by
  refine ⟨fun b0 b1 b2 b3 => ⟨toNat_parse32be b0 b1 b2 b3, toNat_parse32le b0 b1 b2 b3⟩,
    fun w => ⟨enc32_be w, ?_⟩, fun v => ⟨enc64_be v, ?_⟩⟩
  · rw [enc32_le, enc32_be]
    rfl
  · rw [enc64_le, enc64_be]
    rfl

end Sys2Proof.Machine
end

section
/-! PROOF of the register values after `INIT` (10_state.md R36) and after hardware reset (R35). `INIT` and the `DIGEST`
of a Ready state end in the same `initSession`; its field laws then give the values. -/

namespace Sys2Proof.Machine

/-- `INIT`, and `DIGEST` in a Ready state, differ from the initialised session by their reply alone; `INIT` has no
result bytes (45_session_commands.md R150, 44_digest_finalizer.md R144). -/
theorem exec_eq_respondOk_initSession {s : State} {i : Instr}
    (h : i = .init ∨ (i = .digest ∧ s.ready = true)) :
    ∃ result, exec i s = .next (respondOk result (initSession s)) ∧ (i = .init → result = []) := by
  obtain rfl | ⟨rfl, hready⟩ := h
  · exact ⟨[], exec_init s, fun _ => rfl⟩
  · exact ⟨_, exec_digest_of_ready hready, nofun⟩

/-- Settles O11: both commands end in `initSession`, whose words are the `IV` of the instance. -/
theorem initSetsTheSession : Obligations.InitSetsTheSession := by
  intro s i h
  obtain ⟨result, hexec, hresult⟩ := exec_eq_respondOk_initSession h
  refine ⟨_, hexec, ?words, fun a _ => readByte_nil a, rfl, rfl, rfl, rfl, rfl, ?reply⟩
  case words =>
    rw [respondOk_words, initSession_words]
    cases s.alg <;> rfl
  case reply =>
    intro hinit
    rw [respondOk_hostOut, initSession_hostOut, hresult hinit]
    rfl

/-- `STATUS` before the first `INIT` and the first fault (10_state.md R27). -/
theorem statusByte_zero_false : statusByte 0 false = 0x00 := by decide

/-- Settles O32: the reset fields, and the status byte they make. -/
theorem resetValues : Obligations.ResetValues := by
  refine ⟨fun alg => ⟨resetFor_ready alg, resetFor_fault alg, ?_⟩, Config.resetAlg, rfl⟩
  rw [exec_rdstatus, resetFor_fault, resetFor_ready, statusByte_zero_false]
  rfl

end Sys2Proof.Machine
end

section
/-! PROOF that an illegal command word raises `ILLEGAL_CMD` (30_encoding.md R64; 60_exceptions.md R166): which words the
decoder calls illegal, by their fields, and what the step does at one. -/

namespace Sys2Proof

/-- The illegal words by their fields: a reserved `OP`, or a `LEN` where the command has none (30_encoding.md R64). -/
theorem exists_decodeWord_illegal_iff (c : CmdWord) :
    (∃ why, decodeWord c = .illegal why) ↔
      4 ≤ (CmdWord.op c).toNat ∨
        ((CmdWord.op c = 0x00 ∨ CmdWord.op c = 0x02 ∨ CmdWord.op c = 0x03) ∧ CmdWord.len c ≠ 0) := by
  rcases decodeWord_cases c with ⟨hop, hw⟩ | ⟨hop, hlen, hw⟩ | ⟨hop, hlen, hw⟩ | ⟨hop, hlen, hw⟩ |
    ⟨hop, hw⟩ | ⟨hop, hlen, hw⟩
  · simp [hw, hop]
  · simp [hw, hop, hlen]
  · simp [hw, hop, hlen]
  · simp [hw, hop, hlen]
  · exact iff_of_true ⟨_, hw⟩ (.inl hop)
  · exact iff_of_true ⟨_, hw⟩ (.inr ⟨hop, hlen⟩)

/-- Every word that is not illegal is one of the four commands. -/
theorem decodeWord_command_of_not_illegal {c : CmdWord} (h : ¬ ∃ why, decodeWord c = .illegal why) :
    decodeWord c = .init ∨ (∃ len, decodeWord c = .update len) ∨ decodeWord c = .digest ∨
      decodeWord c = .rdstatus := by
  cases hw : decodeWord c with
  | init => exact .inl rfl
  | update len => exact .inr (.inl ⟨len, rfl⟩)
  | digest => exact .inr (.inr (.inl rfl))
  | rdstatus => exact .inr (.inr (.inr rfl))
  | illegal why => exact absurd ⟨why, hw⟩ h

/-- An illegal word is a transaction of its own: no payload belongs to it (30_encoding.md R64). -/
theorem decode_illegal_word {c : CmdWord} {why : IllegalWord} (rest : List HostItem)
    (h : decodeWord c = .illegal why) : decode (.cmd c :: rest) = .illegal why rest := by
  simp only [decode, decodeCommand, h]

end Sys2Proof

namespace Sys2Proof.Machine

/-- The step at an illegal word consumes that word and raises the fault. -/
theorem step_of_illegal_word {s : State} {c : CmdWord} {why : IllegalWord} {rest : List HostItem}
    (hin : s.hostIn = .cmd c :: rest) (h : decodeWord c = .illegal why) :
    step s = .next (raiseFault .illegalCmd (consumeTo rest s)) := by
  simp only [step, fetch, hin, decode_illegal_word rest h]

/-- Settles O6: the fields say exactly which words are illegal; at one the step raises the fault on the consumed
input, and any other is a command. -/
theorem illegalWordRaisesIllegalCmd : Obligations.IllegalWordRaisesIllegalCmd := by
  intro s c rest
  have hfields := exists_decodeWord_illegal_iff c
  constructor
  · intro hin hillegal
    obtain ⟨why, hw⟩ := hfields.mpr hillegal
    rw [step_of_illegal_word hin hw]
    rfl
  · intro hlegal
    exact decodeWord_command_of_not_illegal (mt hfields.mp hlegal)

end Sys2Proof.Machine
end

section
/-! PROOF that `compress` loads the working registers from the state words and adds them back after the last round
(40_compress_and_accumulator.md R83, R84): each instance's `compress` is a feed-forward, and a feed-forward is word by
word on the word lists. -/

namespace Sys2Proof.Machine

/-! ### The working registers before the first round (R84) -/

@[simp] theorem sha256Working_zero (h : Words8) (b : Block) : sha256Working 0 h b = h := rfl

@[simp] theorem md5Working_zero (h : Words4) (b : Block) : md5Working 0 h b = h := rfl

/-! ### `compress` is the feed-forward of all 64 rounds (R83) -/

theorem compress_sha256s (h : Words8) (b : Block) :
    compress (.sha256s h) b = .sha256s (addWords8 h (sha256Working 64 h b)) := rfl

theorem compress_md5s (h : Words4) (b : Block) :
    compress (.md5s h) b = .md5s (addWords4 h (md5Working 64 h b)) := rfl

/-! ### The feed-forward, word by word -/

theorem toList_addWords8 (x y : Words8) :
    (HashState.sha256s (addWords8 x y)).toList =
      List.zipWith (· + ·) (HashState.sha256s x).toList (HashState.sha256s y).toList := rfl

theorem toList_addWords4 (x y : Words4) :
    (HashState.md5s (addWords4 x y)).toList =
      List.zipWith (· + ·) (HashState.md5s x).toList (HashState.md5s y).toList := rfl

/-- Settles O34: for each instance, `compress` is the feed-forward of the registers after 64 rounds, and the
feed-forward adds the words in index order. -/
theorem compressFeedsForward : Obligations.CompressFeedsForward := by
  constructor
  · intro h b
    refine ⟨sha256Working_zero h b, ?_⟩
    rw [compress_sha256s, toList_addWords8]
  · intro h b
    refine ⟨md5Working_zero h b, ?_⟩
    rw [compress_md5s, toList_addWords4]

end Sys2Proof.Machine
end

section
/-! PROOF of the fault `NOT_READY` (43_update_buffer_manager.md R122, 44_digest_finalizer.md R136, 60_exceptions.md R167):
the step at the front of the input that encodes a command runs that command, and the four meanings give the replies. -/

namespace Sys2Proof

/-- The encoding of a well-formed command decodes to it, payload and all, whatever follows (30_encoding.md R61, R62). -/
theorem decode_encode_append {i : Instr} (rest : List HostItem) (hwf : i.wellFormed = true) :
    decode (encode i ++ rest) = .instr i rest := by
  have hop := op_encodeWord i
  have hlen := len_encodeWord i
  rw [encode, List.cons_append, decode, decodeCommand]
  cases i with
  | init => rw [decodeWord_init hop hlen]; rfl
  | digest => rw [decodeWord_digest hop hlen]; rfl
  | rdstatus => rw [decodeWord_rdstatus hop hlen]; rfl
  | update data =>
    have hcount : (CmdWord.len (encodeWord (.update data))).toNat = data.length :=
      (Laws.WordFields.update data).2 hwf
    rw [decodeWord_update hop]
    simp only [Instr.payload, hcount, takePayload_data, Decoded.ofPayload]

end Sys2Proof

namespace Sys2Proof.Machine

/-- The step at an encoded command runs that command, its words and payload consumed. -/
theorem step_of_encode {s : State} {i : Instr} {rest : List HostItem}
    (hin : s.hostIn = encode i ++ rest) (hwf : i.wellFormed = true) :
    step s = exec i (consumeTo rest s) := by
  simp only [step, fetch, hin, decode_encode_append rest hwf]

/-- `NOT_READY` written out: the sticky record, the response word, nothing else (60_exceptions.md R170). -/
theorem raiseFault_notReady (s : State) :
    raiseFault .notReady s =
      { s with
        fault := if s.fault = 0 then 1 else s.fault
        hostOut := s.hostOut ++ [⟨0x01, []⟩] } := rfl

/-- Settles O7: each step runs its command on the consumed input, whose `ready` and `fault` are still those of `s`. -/
theorem notReadyRefusesUpdateAndDigest : Obligations.NotReadyRefusesUpdateAndDigest := by
  intro s rest
  refine ⟨?update, ?digest, ?init, ?rdstatus⟩
  case update =>
    intro d hd hready hin
    rw [step_of_encode hin (decide_eq_true hd),
      exec_update_of_not_ready d ((consumeTo_ready rest s).trans hready), raiseFault_notReady]
    rfl
  case digest =>
    intro hready hin
    rw [step_of_encode hin rfl,
      exec_digest_of_not_ready ((consumeTo_ready rest s).trans hready), raiseFault_notReady]
    rfl
  case init =>
    intro hin
    exact ⟨_, (step_of_encode hin rfl).trans (exec_init _), rfl, rfl⟩
  case rdstatus =>
    intro hin
    exact ⟨_, _, (step_of_encode hin rfl).trans (exec_rdstatus _), rfl, rfl⟩

end Sys2Proof.Machine
end

section
/-! PROOF of chunking invariance (43_update_buffer_manager.md R127). What a sequence of `UPDATE`s does to a session is a
function of its bytes alone (`Absorbed`): one `UPDATE` absorbs its payload, and absorbing composes along `++`. -/

namespace Sys2Proof.Machine

/-! ### The bytes after the last whole block -/

/-- The bytes of a sequence that `blocksOf` leaves over, fewer than 64. -/
def blockTail (x : List Byte) : List Byte := x.drop (64 * (x.length / 64))

theorem length_blockTail (x : List Byte) : (blockTail x).length = x.length % 64 := by
  rw [blockTail, List.length_drop]
  omega

theorem blockTail_of_short {x : List Byte} (h : x.length < 64) : blockTail x = x := by
  rw [blockTail, Nat.div_eq_of_lt h]
  rfl

/-- Whole blocks in front do not show in the tail. -/
theorem blockTail_append {x y : List Byte} (h : x.length % 64 = 0) :
    blockTail (x ++ y) = blockTail y := by
  have hcut : 64 * ((x ++ y).length / 64) = x.length + 64 * (y.length / 64) := by
    rw [List.length_append]
    omega
  rw [blockTail, hcut, List.drop_length_add_append]
  rfl

/-- A sequence is its whole blocks and its tail. -/
theorem exists_whole_append_blockTail (x : List Byte) :
    ∃ w : List Byte, w.length % 64 = 0 ∧ blocksOf w = blocksOf x ∧ x = w ++ blockTail x := by
  refine ⟨x.take (64 * (x.length / 64)), ?_, blocksOf_take x, (List.take_append_drop _ x).symm⟩
  rw [List.length_take]
  omega

/-- More bytes after `x`: the blocks of `x`, then those that its tail makes with the new bytes. -/
theorem blocksOf_append_blockTail (x y : List Byte) :
    blocksOf (x ++ y) = blocksOf x ++ blocksOf (blockTail x ++ y) := by
  obtain ⟨w, hw, hblocks, hx⟩ := exists_whole_append_blockTail x
  calc blocksOf (x ++ y) = blocksOf (w ++ (blockTail x ++ y)) := by rw [← List.append_assoc, ← hx]
    _ = blocksOf x ++ blocksOf (blockTail x ++ y) := by rw [blocksOf_append hw, hblocks]

theorem blockTail_append_blockTail (x y : List Byte) :
    blockTail (x ++ y) = blockTail (blockTail x ++ y) := by
  obtain ⟨w, hw, -, hx⟩ := exists_whole_append_blockTail x
  calc blockTail (x ++ y) = blockTail (w ++ (blockTail x ++ y)) := by rw [← List.append_assoc, ← hx]
    _ = blockTail (blockTail x ++ y) := blockTail_append hw

/-! ### A session that has absorbed bytes -/

/-- `t` is `s` after the bytes `m` were accepted: they follow the significant bytes, whole blocks go into `words`, and
the tail stays in the buffer. The length of the tail is `fill` (`length_significant`). -/
structure Absorbed (s : State) (m : List Byte) (t : State) : Prop where
  words : t.words = compressAll s.words (blocksOf (s.significant ++ m))
  significant : t.significant = blockTail (s.significant ++ m)
  totalLength : t.totalLength = s.totalLength + BitVec.ofNat 64 m.length
  ready : t.ready = s.ready
  fault : t.fault = s.fault

theorem length_significant_lt (s : State) : s.significant.length < 64 := by
  rw [length_significant]
  exact fill_lt s

theorem Absorbed.refl (s : State) : Absorbed s [] s where
  words := by rw [List.append_nil, blocksOf_of_short (length_significant_lt s), compressAll_nil]
  significant := by rw [List.append_nil, blockTail_of_short (length_significant_lt s)]
  totalLength := by simp
  ready := rfl
  fault := rfl

/-- Absorbing in two parts is absorbing their concatenation. -/
theorem Absorbed.trans {s t u : State} {m n : List Byte} (hst : Absorbed s m t) (htu : Absorbed t n u) :
    Absorbed s (m ++ n) u where
  words := by
    rw [htu.words, hst.words, hst.significant, ← compressAll_append, ← blocksOf_append_blockTail,
      List.append_assoc]
  significant := by
    rw [htu.significant, hst.significant, ← blockTail_append_blockTail, List.append_assoc]
  totalLength := by
    rw [htu.totalLength, hst.totalLength, List.length_append, BitVec.ofNat_add, BitVec.add_assoc]
  ready := htu.ready.trans hst.ready
  fault := htu.fault.trans hst.fault

/-- A reply to the host is no part of the session. -/
theorem Absorbed.respondOk {s t : State} {m : List Byte} (result : List Byte) (h : Absorbed s m t) :
    Absorbed s m (respondOk result t) :=
  ⟨h.words, h.significant, h.totalLength, h.ready, h.fault⟩

/-- The bytes absorbed determine the session. -/
theorem Absorbed.sameSession {s t u : State} {m : List Byte} (ht : Absorbed s m t) (hu : Absorbed s m u) :
    SameSession t u := by
  have hsig : t.significant = u.significant := ht.significant.trans hu.significant.symm
  have hfill : t.fill.toNat = u.fill.toNat := by rw [← length_significant, ← length_significant, hsig]
  exact ⟨ht.words.trans hu.words.symm, BitVec.eq_of_toNat_eq hfill,
    ht.totalLength.trans hu.totalLength.symm, hsig⟩

/-! ### `UPDATE` absorbs its payload -/

theorem absorbWhole_words (data : List Byte) (s : State) :
    (absorbWhole data s).words = compressAll s.words (blocksOf data) := by rw [absorbWhole_eq]

/-- The payload's tail, written at offset 0, is all that is significant afterwards (R125). -/
theorem absorbWhole_significant (data : List Byte) (s : State) :
    (absorbWhole data s).significant = blockTail data := by
  have hlen : (BitVec.ofNat 6 (data.length % 64)).toNat = (blockTail data).length := by
    rw [length_blockTail, BitVec.toNat_ofNat, Nat.mod_mod]
  have hfits : (blockTail data).length ≤ 64 := by
    rw [length_blockTail]
    omega
  rw [absorbWhole_eq, State.significant, hlen]
  exact memRead_memWrite_zero hfits

/-- Fewer bytes than the block lacks: no block is made, and the bytes join the significant ones (R123). -/
theorem appendBytes_absorbs {s : State} {data : List Byte} (h : s.fill.toNat + data.length < 64) :
    (appendBytes data s).words = compressAll s.words (blocksOf (s.significant ++ data)) ∧
      (appendBytes data s).significant = blockTail (s.significant ++ data) := by
  have hshort : (s.significant ++ data).length < 64 := by rwa [List.length_append, length_significant]
  exact ⟨by rw [blocksOf_of_short hshort]; rfl,
    by rw [(appendBytes_significant h).1, blockTail_of_short hshort]⟩

/-- The bytes that complete the block, then the rest: the whole blocks of both together (R123 to R125). -/
theorem absorbWhole_completeBlock_absorbs {s : State} {front back : List Byte}
    (h : s.fill.toNat + front.length = 64) :
    (absorbWhole back (completeBlock front s)).words =
        compressAll s.words (blocksOf (s.significant ++ (front ++ back))) ∧
      (absorbWhole back (completeBlock front s)).significant =
        blockTail (s.significant ++ (front ++ back)) := by
  have hwhole : (s.significant ++ front).length % 64 = 0 := by
    rw [List.length_append, length_significant, h]
  rw [← List.append_assoc]
  constructor
  · rw [absorbWhole_words, completeBlock_block h, blocksOf_append hwhole, compressAll_append]
  · rw [absorbWhole_significant, blockTail_append hwhole]

theorem significant_of_fill_eq_zero {s : State} (h : s.fill.toNat = 0) : s.significant = [] :=
  List.eq_nil_of_length_eq_zero ((length_significant s).trans h)

/-- `UPDATE`, whichever way it goes, absorbs its payload (R126). -/
theorem absorbed_absorb (data : List Byte) (s : State) : Absorbed s data (absorb data s) := by
  obtain ⟨hready, hfault, -, -, -, htotal⟩ := absorb_frame data s
  suffices h : (absorb data s).words = compressAll s.words (blocksOf (s.significant ++ data)) ∧
      (absorb data s).significant = blockTail (s.significant ++ data) from
    ⟨h.1, h.2, htotal, hready, hfault⟩
  obtain ⟨-, hlt, h⟩ | ⟨-, hge, h⟩ | ⟨hzero, h⟩ := absorb_cases data s <;> rw [h]
  · exact appendBytes_absorbs (s := countBytes data.length s) hlt
  · have hfront : s.fill.toNat + (data.take (64 - s.fill.toNat)).length = 64 := by
      have := fill_lt s
      rw [List.length_take]
      omega
    have := absorbWhole_completeBlock_absorbs (s := countBytes data.length s)
      (back := data.drop (64 - s.fill.toNat)) hfront
    rwa [List.take_append_drop] at this
  · rw [significant_of_fill_eq_zero hzero]
    exact ⟨absorbWhole_words data _, absorbWhole_significant data _⟩

/-- From a Ready state any sequence of `UPDATE`s completes and has absorbed its concatenated payloads. -/
theorem execAll_updates_absorbed (chunks : List (List Byte)) {s : State} (hready : s.ready = true) :
    ∃ t, execAll (chunks.map .update) s = .next t ∧ Absorbed s chunks.flatten t := by
  induction chunks generalizing s with
  | nil => exact ⟨s, rfl, Absorbed.refl s⟩
  | cons data chunks ih =>
    have hfirst := (absorbed_absorb data s).respondOk []
    obtain ⟨t, hrun, hrest⟩ := ih (hfirst.ready.trans hready)
    exact ⟨t, (execAll_cons _ (exec_update_of_ready data hready)).trans hrun, hfirst.trans hrest⟩

/-- Settles O23: both sequences have absorbed the same bytes, and those determine the session. -/
theorem chunkingInvariance : Obligations.ChunkingInvariance := by
  intro s chunks chunks' hready hsame
  obtain ⟨t, hrun, ht⟩ := execAll_updates_absorbed chunks hready
  obtain ⟨u, hrun', hu⟩ := execAll_updates_absorbed chunks' hready
  rw [← hsame] at hu
  exact ⟨t, u, hrun, hrun', ht.sameSession hu, ht.ready.trans hu.ready.symm, ht.fault.trans hu.fault.symm⟩

end Sys2Proof.Machine
end

section
/-! PROOF of the bit count in the footer (44_digest_finalizer.md R141). -/

namespace Sys2Proof.Machine

/-- `shl64_3` is multiplication by 8 modulo 2^64 (00_scope.md R11). -/
theorem toNat_shl64x3 (v : Dword) : (shl64x3 v).toNat = (v.toNat * 8) % 2 ^ 64 := by
  rw [shl64x3, BitVec.toNat_shiftLeft, Nat.shiftLeft_eq]

/-- The low 61 bits move up over three zero bits. -/
theorem shl64x3_eq_append (v : Dword) : shl64x3 v = v.extractLsb' 0 61 ++ (0 : BitVec 3) := by
  refine BitVec.eq_of_toNat_eq ?_
  have happend : (v.extractLsb' 0 61 ++ (0 : BitVec 3)).toNat = v.toNat % 2 ^ 61 * 2 ^ 3 := by
    rw [BitVec.toNat_append, BitVec.extractLsb'_toNat, Nat.shiftRight_zero, Nat.shiftLeft_eq]
    exact Nat.or_zero _
  rw [toNat_shl64x3, happend]
  omega

/-- Settles O39: by the value of the shift, which is exact where the product fits. -/
theorem bitCountWrapsAtTwoToTheSixtyFour : Obligations.BitCountWrapsAtTwoToTheSixtyFour := by
  intro v
  refine ⟨toNat_shl64x3 v, shl64x3_eq_append v, fun h => ?_⟩
  rw [toNat_shl64x3]
  omega

end Sys2Proof.Machine
end

section
/-! PROOF of what `DIGEST` returns and leaves (44_digest_finalizer.md R142, R144, R147): the session is initialised
again, the result is the words in the instance's byte order, and after no message it is the digest of no message. -/

namespace Sys2Proof.Machine

/-! ### The session afterwards (R144) -/

/-- Settles O17: `DIGEST` and `INIT` end in the same `initSession` and differ by their reply alone. -/
theorem digestReinitialisesTheSession : Obligations.DigestReinitialisesTheSession := by
  intro s hready
  exact ⟨_, _, exec_digest_of_ready hready, exec_init s, rfl, rfl, rfl, rfl, rfl, rfl, rfl, rfl,
    fun a _ => readByte_nil a, rfl, rfl, rfl, rfl⟩

/-! ### The bytes of the result (R142) -/

@[simp] theorem length_enc32 (o : ByteOrder) (w : Word) : (enc32 o w).length = 4 := by
  cases o <;> rfl

/-- Word `j` stands at bytes `4j .. 4j+3` of the words laid end to end. -/
theorem getD_flatMap_enc32 (o : ByteOrder) {ws : List Word} {j k : Nat} (hj : j < ws.length) (hk : k < 4) :
    (ws.flatMap (enc32 o)).getD (4 * j + k) 0 = (enc32 o (ws.getD j 0)).getD k 0 := by
  induction ws generalizing j with
  | nil => cases hj
  | cons w ws ih =>
    rw [List.flatMap_cons]
    cases j with
    | zero => rw [Nat.mul_zero, Nat.zero_add, getD_append_left (by rwa [length_enc32]), List.getD_cons_zero]
    | succ j =>
      rw [getD_append_right (by rw [length_enc32]; omega), List.getD_cons_succ,
        ← ih (Nat.lt_of_succ_lt_succ hj), length_enc32]
      congr 1
      omega

/-- Big-endian: the most significant byte first (00_scope.md R12). -/
theorem getD_enc32_be (w : Word) {k : Nat} (hk : k < 4) :
    (enc32 .be w).getD k 0 = w.extractLsb' (8 * (3 - k)) 8 := by
  interval_cases k <;> rfl

/-- Little-endian: the least significant byte first (00_scope.md R12). -/
theorem getD_enc32_le (w : Word) {k : Nat} (hk : k < 4) :
    (enc32 .le w).getD k 0 = w.extractLsb' (8 * k) 8 := by
  interval_cases k <;> rfl

theorem length_toList (h : HashState) : h.toList.length = numWords h.alg := by
  cases h <;> rfl

theorem digestSize_eq (alg : Alg) : digestSize alg = 4 * numWords alg := by
  cases alg <;> rfl

/-- Settles O18: the result is the words laid end to end, each of them its four bytes in the instance's order. -/
theorem digestBytesAreTheWordsInOrder : Obligations.DigestBytesAreTheWordsInOrder := by
  intro s hready
  obtain ⟨-, -, -, -, halg⟩ := finalizeMessage_frame s
  have hinst : (finalizeMessage s).words.alg = s.alg := halg
  have hlen : (serialise (finalizeMessage s).words).length = digestSize s.alg := by
    rw [length_serialise, hinst]
  refine ⟨_, _, exec_digest_of_ready hready, rfl, hlen.trans (digestSize_eq _), hlen, fun j hj k hk => ?_⟩
  have hword : j < (finalizeMessage s).words.toList.length := by rwa [length_toList, hinst]
  rw [serialise, getD_flatMap_enc32 _ hword hk, hinst]
  cases s.alg with
  | sha256s => exact getD_enc32_be _ hk
  | md5s => exact getD_enc32_le _ hk

/-! ### The digest of the empty message (R147) -/

/-- Marker and zeros behind the first `f` bytes, up to the footer (R137, R139). -/
theorem memRead_marker_zeros (m : Memory) {f : Nat} (h : f ≤ 55) :
    memRead (memWrite (memWrite m f [markerByte]) (f + 1) (zeroBytes (56 - (f + 1)))) 0 56 =
      memRead m 0 f ++ [0x80] ++ List.replicate (55 - f) 0 := by
  have hmarker : memRead (memWrite m f [markerByte]) 0 (f + 1) = memRead m 0 f ++ [markerByte] :=
    memRead_memWrite_append (by rw [List.length_singleton]; omega)
  have hzeros := memRead_memWrite_append (m := memWrite m f [markerByte]) (f := f + 1)
    (v := zeroBytes (55 - f)) (by rw [length_zeroBytes]; omega)
  have hcount : 56 - (f + 1) = 55 - f := by omega
  have hend : f + 1 + (55 - f) = 56 := by omega
  rw [length_zeroBytes, hend, hmarker] at hzeros
  rw [hcount, hzeros]
  rfl

/-- With room for the footer after the marker the finalizer makes no extra block, and its cursor stays (R138). -/
theorem finalizeMessage_of_room {s : State} (h : s.fill.toNat ≤ 55) :
    finalizeMessage s = compressStorage (writeFooter (zeroFill (s.fill.toNat + 1) 56 (writeMarker s))) := by
  have hroom : ¬ 64 - (s.fill.toNat + 1) < 8 := by omega
  simp only [finalizeMessage, padFrom, extraBlock, cursorAfter, if_neg hroom]
  rfl

/-- The buffer once the footer is in (R140, R141). -/
theorem storageBlock_writeFooter (s : State) :
    storageBlock (writeFooter s).storage =
      Block.ofList (memRead s.storage 0 56 ++ lengthFooter s.alg s.totalLength.toNat) := by
  rw [← enc64_shl64x3]
  exact storageBlock_memWrite (congrArg (56 + ·) (length_enc64 _ _))

/-- That one compression is of the significant bytes, the marker, zeros and the bit count (R137 to R141). -/
theorem finalizeMessage_words_of_room {s : State} (h : s.fill.toNat ≤ 55) :
    (finalizeMessage s).words = compressAll s.words (blocksOf (s.significant ++ [0x80] ++
      List.replicate (55 - s.fill.toNat) 0 ++ lengthFooter s.alg s.totalLength.toNat)) := by
  have hlen : (s.significant ++ [0x80] ++ List.replicate (55 - s.fill.toNat) 0 ++
      lengthFooter s.alg s.totalLength.toNat).length = 64 := by
    simp [length_significant, lengthFooter]
    omega
  rw [blocksOf_of_block hlen, finalizeMessage_of_room h, compressStorage_words, storageBlock_writeFooter,
    zeroFill_storage, writeMarker_storage, memRead_marker_zeros _ h]
  rfl

/-- The quoted digests are the digests of no bytes. -/
theorem messageDigest_nil (alg : Alg) : messageDigest alg [] = publishedEmptyDigest alg := by
  cases alg <;> decide +kernel

/-- With the register values `INIT` sets, the result is the digest of the empty message. -/
theorem serialise_finalizeMessage_of_initialised {s : State} (hwords : s.words = iv s.alg) (hfill : s.fill = 0)
    (htotal : s.totalLength = 0) : serialise (finalizeMessage s).words = publishedEmptyDigest s.alg := by
  have hzero : s.fill.toNat = 0 := by rw [hfill]; rfl
  rw [finalizeMessage_words_of_room (by omega), significant_of_fill_eq_zero hzero, hwords, hzero, htotal,
    ← messageDigest_nil]
  rfl

/-- After any command that leaves the session just initialised, `DIGEST` returns the digest of the empty message. -/
theorem execAll_digest_of_initSession {s : State} {i : Instr} {result : List Byte}
    (h : exec i s = .next (respondOk result (initSession s))) :
    ∃ t, execAll [i, .digest] s = .next t ∧
      t.hostOut = s.hostOut ++ [⟨0x00, result⟩, ⟨0x00, publishedEmptyDigest s.alg⟩] := by
  refine ⟨_, (execAll_cons _ h).trans (execAll_cons _ (exec_digest_of_ready rfl)), ?_⟩
  rw [serialise_finalizeMessage_of_initialised (by simp) rfl rfl, respondOk_alg, initSession_alg]
  exact List.append_assoc _ _ _

/-- Settles O19: `INIT` and `DIGEST` both leave the session just initialised. -/
theorem emptyMessageDigest : Obligations.EmptyMessageDigest := by
  intro s
  refine ⟨execAll_digest_of_initSession (exec_init s), fun hready => ?_⟩
  obtain ⟨t, hrun, hout⟩ := execAll_digest_of_initSession (exec_digest_of_ready hready)
  exact ⟨t, _, hrun, hout⟩

end Sys2Proof.Machine
end

section
/-! PROOF that `DIGEST` leaves a fresh session (45_session_commands.md R156). The sticky record and the replies already
given are a frame around every command (`State.withRecord`): no command but `RDSTATUS` reads the record, and none reads
the replies. -/

namespace Sys2Proof.Machine

/-! ### A state with another record -/

/-- The state with this fault on record and these replies already given. -/
def State.withRecord (fault : BitVec 2) (out : List Reply) (s : State) : State :=
  { s with fault := fault, hostOut := out }

@[simp] theorem withRecord_words (f : BitVec 2) (out : List Reply) (s : State) :
    (s.withRecord f out).words = s.words := rfl
@[simp] theorem withRecord_ready (f : BitVec 2) (out : List Reply) (s : State) :
    (s.withRecord f out).ready = s.ready := rfl

/-! ### The operations on it -/

theorem respondOk_withRecord (bs : List Byte) (f : BitVec 2) (out : List Reply) (s : State) :
    respondOk bs (s.withRecord f out) = (respondOk bs s).withRecord f (out ++ [⟨respOk, bs⟩]) := rfl

theorem raiseFault_withRecord (code : FaultCode) (f : BitVec 2) (out : List Reply) (s : State) :
    raiseFault code (s.withRecord f out) =
      (raiseFault code s).withRecord (recordFault code f) (out ++ [⟨faultResp code, []⟩]) := rfl

theorem initSession_withRecord (f : BitVec 2) (out : List Reply) (s : State) :
    initSession (s.withRecord f out) = (initSession s).withRecord f out := rfl

theorem absorbWhole_withRecord (data : List Byte) (f : BitVec 2) (out : List Reply) (s : State) :
    absorbWhole data (s.withRecord f out) = (absorbWhole data s).withRecord f out := by
  rw [absorbWhole_eq, absorbWhole_eq]
  rfl

/-- `UPDATE` branches on `fill` and on the payload alone (R120, R123), so the record passes through its branches. -/
theorem absorb_withRecord (data : List Byte) (f : BitVec 2) (out : List Reply) (s : State) :
    absorb data (s.withRecord f out) = (absorb data s).withRecord f out := by
  simp only [absorb, absorbCounted, apply_ite (State.withRecord f out), ← absorbWhole_withRecord]
  rfl

/-- The finalizer branches on its cursor alone (R138). -/
theorem extraBlock_withRecord (c : Nat) (f : BitVec 2) (out : List Reply) (s : State) :
    extraBlock c (s.withRecord f out) = (extraBlock c s).withRecord f out := by
  simp only [extraBlock, apply_ite (State.withRecord f out)]
  rfl

theorem finalizeMessage_withRecord (f : BitVec 2) (out : List Reply) (s : State) :
    finalizeMessage (s.withRecord f out) = (finalizeMessage s).withRecord f out :=
  congrArg (fun t => compressStorage (writeFooter (zeroFill (cursorAfter (s.fill.toNat + 1)) 56 t)))
    (extraBlock_withRecord (s.fill.toNat + 1) f out (writeMarker s))

/-! ### The commands on it -/

/-- A command gives the same reply whatever the record, but for `RDSTATUS`, which reports it; and it leaves records
alike that were alike. -/
theorem exec_withRecord {i : Instr} {s : State} {f : BitVec 2} (out : List Reply)
    (h : i = .rdstatus → f = s.fault) :
    ∃ t f' r, exec i s = .next t ∧ t.hostOut = s.hostOut ++ [r] ∧
      exec i (s.withRecord f out) = .next (t.withRecord f' (out ++ [r])) ∧
      (f = s.fault → f' = t.fault) := by
  have hready' := withRecord_ready f out s
  cases i with
  | init => exact ⟨_, f, _, exec_init s, rfl, exec_init _, id⟩
  | update data =>
    cases hready : s.ready with
    | false =>
      refine ⟨_, _, _, exec_update_of_not_ready data hready, rfl, ?_, congrArg (recordFault .notReady)⟩
      rw [exec_update_of_not_ready data (hready'.trans hready), raiseFault_withRecord]
    | true =>
      obtain ⟨-, hfault, -, hout, -⟩ := absorb_frame data s
      refine ⟨_, f, ⟨respOk, []⟩, exec_update_of_ready data hready, ?_, ?_, fun hf => hf.trans hfault.symm⟩
      · rw [respondOk_hostOut, hout]
      · rw [exec_update_of_ready data (hready'.trans hready), absorb_withRecord, respondOk_withRecord]
  | digest =>
    cases hready : s.ready with
    | false =>
      refine ⟨_, _, _, exec_digest_of_not_ready hready, rfl, ?_, congrArg (recordFault .notReady)⟩
      rw [exec_digest_of_not_ready (hready'.trans hready), raiseFault_withRecord]
    | true =>
      refine ⟨_, f, _, exec_digest_of_ready hready, rfl, ?_, id⟩
      rw [exec_digest_of_ready (hready'.trans hready), finalizeMessage_withRecord, withRecord_words,
        initSession_withRecord, respondOk_withRecord]
  | rdstatus =>
    obtain rfl := h rfl
    exact ⟨_, s.fault, _, exec_rdstatus s, rfl, exec_rdstatus _, id⟩

/-- A sequence of commands gives the same replies whatever the record, unless it has an `RDSTATUS` in it. -/
theorem execAll_withRecord (cmds : List Instr) {s : State} {f : BitVec 2} (out : List Reply)
    (h : Instr.rdstatus ∈ cmds → f = s.fault) :
    ∃ t u replies, execAll cmds s = .next t ∧ execAll cmds (s.withRecord f out) = .next u ∧
      t.hostOut = s.hostOut ++ replies ∧ u.hostOut = out ++ replies := by
  induction cmds generalizing s f out with
  | nil => exact ⟨s, _, [], rfl, rfl, (List.append_nil _).symm, (List.append_nil out).symm⟩
  | cons i cmds ih =>
    obtain ⟨s', f', r, hexec, hout, hexec', hfault⟩ :=
      exec_withRecord (i := i) out fun hi => h (hi ▸ List.mem_cons_self)
    obtain ⟨t, u, replies, hrun, hrun', ht, hu⟩ :=
      ih (s := s') (out ++ [r]) fun hmem => hfault (h (List.mem_cons_of_mem _ hmem))
    refine ⟨t, u, r :: replies, (execAll_cons cmds hexec).trans hrun,
      (execAll_cons cmds hexec').trans hrun', ?_, ?_⟩
    · rw [ht, hout, List.append_assoc, List.singleton_append]
    · rw [hu, List.append_assoc, List.singleton_append]

/-- Settles O25: what `DIGEST` and `INIT` leave differs in the record alone, and that shows in no reply but the one of
`RDSTATUS`. -/
theorem digestLeavesAFreshSession : Obligations.DigestLeavesAFreshSession := by
  intro s hready
  exact ⟨_, _, exec_digest_of_ready hready, exec_init s, rfl, rfl, rfl, rfl, rfl,
    fun cmds => execAll_withRecord cmds _ fun _ => rfl,
    fun code cmds hnot => execAll_withRecord cmds _ fun hmem => absurd hmem hnot⟩

end Sys2Proof.Machine
end

section
/-! PROOF of the session state machine (45_session_commands.md R153): every cell of its table, from the two ways a
command goes and from what the step does at an illegal word and at hardware reset. -/

namespace Sys2Proof.Machine

/-- The step at the reset event consumes it and resets the engine (70_reset_and_hazards.md R185). -/
theorem step_of_reset {s : State} {rest : List HostItem} (hin : s.hostIn = .reset :: rest) :
    step s = .next (hardwareReset (consumeTo rest s)) := by
  simp only [step, fetch, hin, decode]

/-- `UPDATE` stays in its session state, and answers `OK` or `NOT_READY` by it. -/
theorem exec_update_ready_reply (data : List Byte) (s : State) :
    ∃ t, exec (.update data) s = .next t ∧ t.ready = s.ready ∧
      t.hostOut = s.hostOut ++ [⟨if s.ready = true then 0x00 else 0x01, []⟩] := by
  cases hready : s.ready with
  | false => exact ⟨_, exec_update_of_not_ready data hready, hready, rfl⟩
  | true =>
    obtain ⟨habsorb, -, -, hout, -⟩ := absorb_frame data s
    refine ⟨_, exec_update_of_ready data hready, habsorb.trans hready, ?_⟩
    rw [respondOk_hostOut, hout]
    rfl

/-- `DIGEST` stays in its session state, and answers `OK` or `NOT_READY` by it. -/
theorem exec_digest_ready_reply (s : State) :
    ∃ t r, exec .digest s = .next t ∧ t.ready = s.ready ∧
      t.hostOut = s.hostOut ++ [⟨if s.ready = true then 0x00 else 0x01, r⟩] := by
  cases hready : s.ready with
  | false => exact ⟨_, _, exec_digest_of_not_ready hready, hready, rfl⟩
  | true => exact ⟨_, _, exec_digest_of_ready hready, rfl, rfl⟩

/-- Settles O26: one column of the table after another. -/
theorem sessionStateMachine : Obligations.SessionStateMachine := by
  intro s
  refine ⟨?init, fun data => exec_update_ready_reply data s, exec_digest_ready_reply s, ?rdstatus, ?illegal, ?reset⟩
  case init => exact ⟨_, exec_init s, rfl, rfl, rfl, rfl⟩
  case rdstatus => exact ⟨_, _, exec_rdstatus s, rfl, rfl⟩
  case illegal =>
    intro c why rest hin hillegal
    exact ⟨_, step_of_illegal_word hin hillegal, rfl, rfl⟩
  case reset =>
    intro rest hin
    exact ⟨_, step_of_reset hin, rfl, rfl⟩

end Sys2Proof.Machine
end

section
/-! PROOF of `RDSTATUS` (45_session_commands.md R152): the fields of the byte `STATUS`, and the last reply of a
sequence of commands that ends with `RDSTATUS`. -/

namespace Sys2Proof.Machine

/-! ### The byte `STATUS` (10_state.md R27) -/

/-- The three fields, over all eight values of the byte. -/
theorem statusByte_fields (fault : BitVec 2) (ready : Bool) :
    (statusByte fault ready).getLsbD 0 = ready ∧ (statusByte fault ready).extractLsb' 1 2 = fault ∧
      (statusByte fault ready).extractLsb' 3 5 = 0 := by
  revert fault ready
  decide

theorem toNat_statusByte (fault : BitVec 2) (ready : Bool) :
    (statusByte fault ready).toNat = 2 * fault.toNat + ready.toNat := by
  revert fault ready
  decide

/-- `fault = 3` never occurs (10_state.md R26), and without it the byte is at most 5. -/
theorem toNat_statusByte_le {fault : BitVec 2} (ready : Bool) (h : fault ≠ 3) :
    (statusByte fault ready).toNat ≤ 5 := by
  have hfault : fault.toNat ≠ 3 := fun h3 => h (BitVec.eq_of_toNat_eq h3)
  have hlt := fault.isLt
  have hready := Bool.toNat_le ready
  rw [toNat_statusByte]
  omega

/-- `Ready`, and no fault yet. -/
theorem statusByte_zero_true : statusByte 0 true = 0x01 := by decide

/-- `Ready`, and `NOT_READY` on record. -/
theorem statusByte_one_true : statusByte 1 true = 0x03 := by decide

/-! ### Its reply -/

/-- After any commands `RDSTATUS` reports the `fault` and `ready` they left. -/
theorem execAll_append_rdstatus {cmds : List Instr} {s t : State} {b : Byte} (h : execAll cmds s = .next t)
    (hb : statusByte t.fault t.ready = b) :
    ∃ u, execAll (cmds ++ [.rdstatus]) s = .next u ∧ u.hostOut.getLast? = some ⟨0x00, [b]⟩ := by
  refine ⟨_, (execAll_append _ h).trans (execAll_cons [] (exec_rdstatus t)), ?_⟩
  rw [respondOk_hostOut, List.getLast?_concat, hb]
  rfl

/-- Settles O12: the fields of the byte, the word by evaluation, and each example by the state its commands leave:
`NOT_READY` is on record where an `UPDATE` came first. -/
theorem rdstatusReturnsStatus : Obligations.RdstatusReturnsStatus := by
  refine ⟨fun s => ?fields, ?word, fun alg data => ?examples⟩
  case fields =>
    obtain ⟨hready, hfault, hzero⟩ := statusByte_fields s.fault s.ready
    exact ⟨_, exec_rdstatus s, hready, hfault, hzero, toNat_statusByte_le s.ready⟩
  case word => decide
  case examples =>
    have hinit (s : State) : execAll [.init] s = .next (respondOk [] (initSession s)) :=
      execAll_cons [] (exec_init s)
    have hrefused := exec_update_of_not_ready data (resetFor_ready alg)
    obtain ⟨t, hrun, hlast⟩ := execAll_append_rdstatus (execAll_nil (State.resetFor alg)) statusByte_zero_false
    obtain ⟨u, hrun', hlast'⟩ := execAll_append_rdstatus (hinit (State.resetFor alg)) statusByte_zero_true
    obtain ⟨v, hrun'', hlast''⟩ :=
      execAll_append_rdstatus ((execAll_cons [.init] hrefused).trans (hinit _)) statusByte_one_true
    exact ⟨t, u, v, hrun, hlast, hrun', hlast', hrun'', hlast''⟩

end Sys2Proof.Machine
end

section
/-! PROOF of hardware reset (70_reset_and_hazards.md R185): the fields the step at the reset event leaves, and that every
other step keeps `ready` once set and `fault` once recorded (`KeepsReadyAndFault`), because a command answers `OK` with
both kept or raises a fault. -/

namespace Sys2Proof.Machine

/-! ### What keeps `ready` and a recorded fault -/

/-- From `s` to `t` neither `ready` nor a recorded fault is cleared (10_state.md, `ready` and `fault`). -/
structure KeepsReadyAndFault (s t : State) : Prop where
  ready : s.ready = true → t.ready = true
  fault : s.fault ≠ 0 → t.fault = s.fault

theorem KeepsReadyAndFault.refl (s : State) : KeepsReadyAndFault s s := ⟨id, fun _ => rfl⟩

theorem KeepsReadyAndFault.respondOk {s t : State} (result : List Byte) (h : KeepsReadyAndFault s t) :
    KeepsReadyAndFault s (respondOk result t) := ⟨h.ready, h.fault⟩

/-- Consuming input touches neither field. -/
theorem KeepsReadyAndFault.of_consumeTo {s t : State} {rest : List HostItem}
    (h : KeepsReadyAndFault (consumeTo rest s) t) : KeepsReadyAndFault s t := ⟨h.ready, h.fault⟩

/-- A fault leaves `ready` alone and gives way to the first one (60_exceptions.md R170). -/
theorem keepsReadyAndFault_raiseFault (code : FaultCode) (s : State) :
    KeepsReadyAndFault s (raiseFault code s) := ⟨id, recordFault_of_ne_zero code⟩

/-- `INIT` sets `ready` and leaves `fault` alone (45_session_commands.md R150). -/
theorem keepsReadyAndFault_initSession (s : State) : KeepsReadyAndFault s (initSession s) :=
  ⟨fun _ => rfl, fun _ => rfl⟩

theorem keepsReadyAndFault_absorb (data : List Byte) (s : State) : KeepsReadyAndFault s (absorb data s) := by
  obtain ⟨hready, hfault, -⟩ := absorb_frame data s
  exact ⟨hready.trans, fun _ => hfault⟩

/-! ### The commands and the step -/

/-- The two ways a command goes: a reply `OK` that keeps both, or the fault `NOT_READY`. -/
theorem exec_replies_ok_or_raises_notReady (i : Instr) (s : State) :
    (∃ result u, exec i s = .next (respondOk result u) ∧ KeepsReadyAndFault s u) ∨
      exec i s = .next (raiseFault .notReady s) := by
  cases i with
  | init => exact .inl ⟨_, _, exec_init s, keepsReadyAndFault_initSession s⟩
  | update data =>
    cases hready : s.ready with
    | false => exact .inr (exec_update_of_not_ready data hready)
    | true => exact .inl ⟨_, _, exec_update_of_ready data hready, keepsReadyAndFault_absorb data s⟩
  | digest =>
    cases hready : s.ready with
    | false => exact .inr (exec_digest_of_not_ready hready)
    | true => exact .inl ⟨_, _, exec_digest_of_ready hready, keepsReadyAndFault_initSession s⟩
  | rdstatus => exact .inl ⟨_, _, exec_rdstatus s, .refl s⟩

theorem exec_keepsReadyAndFault {i : Instr} {s t : State} (h : exec i s = .next t) :
    KeepsReadyAndFault s t := by
  obtain ⟨result, u, hok, hkeeps⟩ | hfault := exec_replies_ok_or_raises_notReady i s
  · cases hok.symm.trans h
    exact hkeeps.respondOk result
  · cases hfault.symm.trans h
    exact keepsReadyAndFault_raiseFault .notReady s

/-- Every step that completes without a reset keeps both. -/
theorem step_keepsReadyAndFault {s t : State} (h : step s = .next t)
    (hnoReset : ∀ rest, decode s.hostIn ≠ .reset rest) : KeepsReadyAndFault s t := by
  obtain ⟨i, rest, -, hstep⟩ | ⟨why, rest, -, hstep⟩ | ⟨rest, hreset, -⟩ | ⟨-, hstep⟩ | ⟨-, hstep⟩ |
    ⟨-, hstep⟩ | ⟨-, hstep⟩ := step_cases s
  · exact (exec_keepsReadyAndFault (hstep.symm.trans h)).of_consumeTo
  · cases hstep.symm.trans h
    exact (keepsReadyAndFault_raiseFault .illegalCmd (consumeTo rest s)).of_consumeTo
  · exact absurd hreset (hnoReset rest)
  · cases hstep.symm.trans h
    exact .refl s
  · cases hstep.symm.trans h
  · cases hstep.symm.trans h
  · cases hstep.symm.trans h

/-- Settles O9: the fields `hardwareReset` leaves, and the step lemma for both fields. -/
theorem hardwareResetClearsReadyAndFault : Obligations.HardwareResetClearsReadyAndFault := by
  constructor
  · intro s rest hin
    exact ⟨_, step_of_reset hin, rfl, rfl, statusByte_zero_false, rfl, rfl, hardwareReset_alg _⟩
  · intro s t hstep hnoReset
    obtain ⟨hready, hfault⟩ := step_keepsReadyAndFault hstep hnoReset
    exact ⟨hready, fun hne => by rwa [hfault hne]⟩

end Sys2Proof.Machine
end

section
/-! PROOF of the round trip between commands and what the host presents (30_encoding.md R60 to R67): the encoding of a
command decodes to it, and nothing but its encoding does. -/

namespace Sys2Proof

/-- Settles O1: the front of the input is the command's encoding, and that decodes to it. -/
theorem decodeOfEncodeGivesTheInstruction : Obligations.DecodeOfEncodeGivesTheInstruction := by
  intro i rest hwf
  exact decode_encode_append rest hwf

/-- A word with the fields of an instruction's command word is that word (30_encoding.md R61). -/
theorem eq_encodeWord {c : CmdWord} {i : Instr} (hop : CmdWord.op c = i.opcode)
    (hlen : CmdWord.len c = BitVec.ofNat 64 i.payload.length) : c = encodeWord i :=
  cmdWord_ext (hop.trans (op_encodeWord i).symm) (hlen.trans (len_encodeWord i).symm)

/-- What a payload decodes to is an instruction only when it is complete (43_update_buffer_manager.md R132). -/
theorem ofPayload_eq_instr {p : Payload} {i : Instr} {rest : List HostItem}
    (h : Decoded.ofPayload p = .instr i rest) : ∃ data, p = .complete data rest ∧ i = .update data := by
  cases p with
  | complete data rest' =>
    cases h
    exact ⟨data, rfl, rfl⟩
  | short => cases h
  | overlapped => cases h
  | abandoned rest' => cases h

/-- A command word that decodes to an instruction starts that instruction's encoding, payload and all. -/
theorem decodeCommand_eq_instr {c : CmdWord} {items rest : List HostItem} {i : Instr}
    (h : decodeCommand c items = .instr i rest) :
    .cmd c :: items = encode i ++ rest ∧ i.wellFormed = true := by
  obtain ⟨hop, hw⟩ | ⟨hop, hlen, hw⟩ | ⟨hop, hlen, hw⟩ | ⟨hop, hlen, hw⟩ | ⟨-, hw⟩ | ⟨-, -, hw⟩ :=
    decodeWord_cases c <;> rw [decodeCommand, hw] at h
  · obtain ⟨data, hpayload, rfl⟩ := ofPayload_eq_instr h
    obtain ⟨rfl, hcount⟩ := takePayload_complete hpayload
    have hlen : CmdWord.len c = BitVec.ofNat 64 data.length := by rw [hcount, BitVec.ofNat_toNat, BitVec.setWidth_eq]
    rw [eq_encodeWord (i := .update data) hop hlen]
    exact ⟨rfl, decide_eq_true (hcount ▸ (CmdWord.len c).isLt)⟩
  · cases h
    rw [eq_encodeWord (i := .init) hop hlen]
    exact ⟨rfl, rfl⟩
  · cases h
    rw [eq_encodeWord (i := .digest) hop hlen]
    exact ⟨rfl, rfl⟩
  · cases h
    rw [eq_encodeWord (i := .rdstatus) hop hlen]
    exact ⟨rfl, rfl⟩
  · cases h
  · cases h

/-- Settles O2: only a command word at the front decodes to an instruction, and its fields determine it. -/
theorem decodedInputIsTheEncoding : Obligations.DecodedInputIsTheEncoding := by
  intro items i rest h
  cases items with
  | nil => cases h
  | cons item items =>
    cases item with
    | cmd c => exact decodeCommand_eq_instr h
    | data b => cases h
    | reset => cases h

end Sys2Proof
end

section
/-! PROOF that the word decoder is the opcode table's match and mask (30_encoding.md, section 3): each row in terms of the
fields `OP` and `LEN`, which determine the word. -/

namespace Sys2Proof

/-! ### Which words decode to a command -/

/-- A word that begins the transaction of an instruction is that instruction's command word. -/
theorem eq_encodeWord_of_decodeCommand {c : CmdWord} {items rest : List HostItem} {i : Instr}
    (h : decodeCommand c items = .instr i rest) : c = encodeWord i :=
  HostItem.cmd.inj (List.cons.inj (decodeCommand_eq_instr h).1).1

/-- A meaning whose words begin transactions of one instruction, with no payload, is that of its command word alone. -/
theorem decodeWord_eq_iff {c : CmdWord} {meaning : WordMeaning} {i : Instr}
    (hcommand : decodeWord c = meaning → decodeCommand c [] = .instr i [])
    (hword : decodeWord (encodeWord i) = meaning) : decodeWord c = meaning ↔ c = encodeWord i :=
  ⟨fun h => eq_encodeWord_of_decodeCommand (hcommand h), fun h => h ▸ hword⟩

theorem decodeWord_init_iff (c : CmdWord) : decodeWord c = .init ↔ c = encodeWord .init :=
  decodeWord_eq_iff (fun h => by rw [decodeCommand, h]) (decodeWord_init (op_encodeWord _) (len_encodeWord _))

theorem decodeWord_digest_iff (c : CmdWord) : decodeWord c = .digest ↔ c = encodeWord .digest :=
  decodeWord_eq_iff (fun h => by rw [decodeCommand, h]) (decodeWord_digest (op_encodeWord _) (len_encodeWord _))

theorem decodeWord_rdstatus_iff (c : CmdWord) : decodeWord c = .rdstatus ↔ c = encodeWord .rdstatus :=
  decodeWord_eq_iff (fun h => by rw [decodeCommand, h]) (decodeWord_rdstatus (op_encodeWord _) (len_encodeWord _))

/-- `UPDATE` is recognised by `OP` alone, and its operand is the field `LEN` (30_encoding.md R67). -/
theorem decodeWord_update_iff (c : CmdWord) (len : Dword) :
    decodeWord c = .update len ↔ CmdWord.op c = 0x01 ∧ CmdWord.len c = len := by
  constructor
  · intro h
    obtain ⟨hop, hw⟩ | ⟨-, -, hw⟩ | ⟨-, -, hw⟩ | ⟨-, -, hw⟩ | ⟨-, hw⟩ | ⟨-, -, hw⟩ := decodeWord_cases c <;>
      cases hw.symm.trans h
    exact ⟨hop, rfl⟩
  · rintro ⟨hop, rfl⟩
    exact decodeWord_update hop

/-! ### The masks -/

/-- The full mask keeps every bit. -/
theorem and_fullMask (c : CmdWord) : c &&& 0xffffffffffffffffff = c := BitVec.and_allOnes

/-- The mask of `OP` clears the field `LEN` and keeps `OP`. -/
theorem and_opMask (c : CmdWord) : c &&& 0xff0000000000000000 = CmdWord.op c ++ (0 : Dword) := by
  calc c &&& 0xff0000000000000000
      = (CmdWord.op c ++ CmdWord.len c) &&& (BitVec.allOnes 8 ++ (0 : Dword)) := by rw [append_op_len]; rfl
    _ = CmdWord.op c ++ (0 : Dword) := by
        rw [BitVec.and_append, BitVec.and_allOnes]
        exact congrArg _ BitVec.and_zero

theorem and_opMask_eq_iff (c : CmdWord) :
    c &&& 0xff0000000000000000 = 0x010000000000000000 ↔ CmdWord.op c = 0x01 := by
  have hmatch : (0x010000000000000000 : CmdWord) = (0x01 : Byte) ++ (0 : Dword) := rfl
  rw [and_opMask, hmatch]
  refine ⟨fun h => ?_, fun h => by rw [h]⟩
  rw [← op_append (CmdWord.op c) 0, h, op_append]

/-- Settles O3: under the full mask a word matches when it is the command's own word, under the mask of `OP` when its
opcode is that of `UPDATE`. -/
theorem commandWordsMatchTheOpcodeTable : Obligations.CommandWordsMatchTheOpcodeTable := by
  intro c
  rw [and_fullMask, and_opMask_eq_iff]
  refine ⟨decodeWord_init_iff c, ?update, decodeWord_digest_iff c, decodeWord_rdstatus_iff c, ?len⟩
  case update =>
    simp only [decodeWord_update_iff, exists_and_left, exists_eq', and_true]
  case len =>
    intro len h
    obtain ⟨-, rfl⟩ := (decodeWord_update_iff c len).mp h
    exact (BitVec.setWidth_eq_extractLsb' (by decide)).symm

/-- Settles O4: each of the words by evaluation. -/
theorem sampleCommandWordsDecode : Obligations.SampleCommandWordsDecode := by
  unfold Obligations.SampleCommandWordsDecode
  decide

end Sys2Proof
end

section
/-! PROOF of what a step makes of the host's input (30_encoding.md R60; 43_update_buffer_manager.md R132;
70_reset_and_hazards.md R186, R190, R191): a whole transaction runs, an `UPDATE` without its whole payload does not. -/

namespace Sys2Proof.Machine

/-- Settles O5: what the input decodes to is what `fetch` hands to `exec`. -/
theorem stepRunsTheDecodedInstruction : Obligations.StepRunsTheDecodedInstruction := by
  intro s i rest h
  simp only [step, fetch, h]
  rfl

/-! ### An `UPDATE` word and what follows it -/

/-- The word of an `UPDATE` takes as many payload bytes as its `LEN` says (30_encoding.md R67). -/
theorem decode_update_word (len : Dword) (items : List HostItem) :
    decode (.cmd ((0x01 : Byte) ++ len) :: items) = .ofPayload (takePayload items len.toNat) := by
  rw [decode, decodeCommand, decodeWord_update (op_append _ _), len_append]

section ShortPayload

variable {s : State} {len : Dword} {d : List Byte} {rest : List HostItem}

/-- Fewer bytes than `LEN`, and nothing after them: the engine waits (R132). -/
theorem step_of_short_payload (hshort : d.length < len.toNat)
    (hin : s.hostIn = .cmd ((0x01 : Byte) ++ len) :: d.map .data) : step s = .fault .payloadAwaited := by
  simp only [step, fetch, hin, decode_update_word, takePayload_short d hshort, Decoded.ofPayload]

/-- Fewer bytes than `LEN`, then a command word: no meaning (R190). -/
theorem step_of_overlapping_command {c : CmdWord} (hshort : d.length < len.toNat)
    (hin : s.hostIn = .cmd ((0x01 : Byte) ++ len) :: (d.map .data ++ .cmd c :: rest)) :
    step s = .refused .overlappingCommand := by
  simp only [step, fetch, hin, decode_update_word, takePayload_overlapped d c rest hshort, Decoded.ofPayload]

/-- Fewer bytes than `LEN`, then the reset event: the command is abandoned (R186). -/
theorem step_of_abandoned_update (hshort : d.length < len.toNat)
    (hin : s.hostIn = .cmd ((0x01 : Byte) ++ len) :: (d.map .data ++ .reset :: rest)) :
    step s = .next (hardwareReset (consumeTo rest s)) := by
  simp only [step, fetch, hin, decode_update_word, takePayload_abandoned d rest hshort, Decoded.ofPayload]

end ShortPayload

/-- With nothing presented the engine holds its state (60_exceptions.md R184). -/
theorem step_of_idle {s : State} (hin : s.hostIn = []) : step s = .next s := by
  simp only [step, fetch, hin, decode]

/-- A payload byte with no `UPDATE` outstanding has no meaning (R191). -/
theorem step_of_surplus_payload {s : State} {b : Byte} {rest : List HostItem} (hin : s.hostIn = .data b :: rest) :
    step s = .refused .surplusPayload := by
  simp only [step, fetch, hin, decode]

/-- Settles O8: one clause for each input. -/
theorem noCommandRunsWithoutItsWholeTransaction : Obligations.NoCommandRunsWithoutItsWholeTransaction := by
  intro s
  exact ⟨step_of_idle, fun _ _ hshort => step_of_short_payload hshort,
    fun _ _ _ _ hshort => step_of_overlapping_command hshort, fun _ _ => step_of_surplus_payload⟩

/-- Settles O10: both steps are the reset on the input consumed past it. -/
theorem resetAbandonsAnUnfinishedUpdate : Obligations.ResetAbandonsAnUnfinishedUpdate := by
  intro s len d rest hshort hin
  have hreset : step { s with hostIn := .reset :: rest } = .next (hardwareReset (consumeTo rest s)) :=
    step_of_reset rfl
  rw [step_of_abandoned_update hshort hin, hreset]

end Sys2Proof.Machine
end

section
/-! PROOF of what every command answers and every step keeps (10_state.md R26, R31; 30_encoding.md R68, R69): a command
replies `OK` or raises `NOT_READY`, and a property that every operation on the state keeps is kept by the step. -/

namespace Sys2Proof.Machine

/-! ### What a command answers -/

/-- The number of result bytes of a successful command (30_encoding.md R69). -/
def resultSize (alg : Alg) : Instr → Nat
  | .init => 0
  | .update _ => 0
  | .digest => digestSize alg
  | .rdstatus => 1

/-- What a successful command leaves alone in the state, whatever it does to the session. -/
structure KeepsInterface (s u : State) : Prop where
  fault : u.fault = s.fault
  hostIn : u.hostIn = s.hostIn
  hostOut : u.hostOut = s.hostOut

theorem KeepsInterface.refl (s : State) : KeepsInterface s s := ⟨rfl, rfl, rfl⟩

theorem keepsInterface_initSession (s : State) : KeepsInterface s (initSession s) := ⟨rfl, rfl, rfl⟩

theorem keepsInterface_absorb (data : List Byte) (s : State) : KeepsInterface s (absorb data s) := by
  obtain ⟨-, hfault, hin, hout, -⟩ := absorb_frame data s
  exact ⟨hfault, hin, hout⟩

theorem length_serialise_finalizeMessage (s : State) :
    (serialise (finalizeMessage s).words).length = digestSize s.alg := by
  obtain ⟨-, -, -, -, halg⟩ := finalizeMessage_frame s
  rw [length_serialise]
  exact congrArg digestSize halg

/-- The two ways a command goes: `OK` with the result bytes of its kind, or, while not ready, the fault `NOT_READY`. -/
theorem exec_answers (i : Instr) (s : State) :
    (∃ result u, exec i s = .next (respondOk result u) ∧ result.length = resultSize s.alg i ∧
      KeepsInterface s u) ∨
    (s.ready = false ∧ exec i s = .next (raiseFault .notReady s)) := by
  cases i with
  | init => exact .inl ⟨_, _, exec_init s, rfl, keepsInterface_initSession s⟩
  | update data =>
    cases hready : s.ready with
    | false => exact .inr ⟨rfl, exec_update_of_not_ready data hready⟩
    | true => exact .inl ⟨_, _, exec_update_of_ready data hready, rfl, keepsInterface_absorb data s⟩
  | digest =>
    cases hready : s.ready with
    | false => exact .inr ⟨rfl, exec_digest_of_not_ready hready⟩
    | true =>
      exact .inl ⟨_, _, exec_digest_of_ready hready, length_serialise_finalizeMessage s,
        keepsInterface_initSession s⟩
  | rdstatus => exact .inl ⟨_, _, exec_rdstatus s, rfl, .refl s⟩

/-- Settles O27: the reply of either way. -/
theorem everyCommandCompletesWithOneReply : Obligations.EveryCommandCompletesWithOneReply := by
  intro i s
  obtain ⟨result, u, hexec, hlen, hkeeps⟩ | ⟨hready, hexec⟩ := exec_answers i s
  · refine ⟨_, ⟨respOk, result⟩, hexec, ?_, hkeeps.hostIn, .inl ⟨rfl, ?_⟩⟩
    · rw [respondOk_hostOut, hkeeps.hostOut]
    · cases i <;> exact hlen
  · exact ⟨_, ⟨faultResp .notReady, []⟩, hexec, rfl, rfl, .inr ⟨rfl, rfl, hready⟩⟩

/-! ### What a step keeps -/

/-- A property of states that every operation keeps, and that holds after reset. -/
structure Kept (P : State → Prop) : Prop where
  consumeTo : ∀ rest s, P s → P (consumeTo rest s)
  raiseFault : ∀ code s, P s → P (raiseFault code s)
  hardwareReset : ∀ s, P s → P (hardwareReset s)
  respondOk : ∀ result s, P s → P (respondOk result s)
  initSession : ∀ s, P s → P (initSession s)
  absorb : ∀ data s, s.ready = true → P s → P (absorb data s)

theorem Kept.exec {P : State → Prop} (hkept : Kept P) {i : Instr} {s t : State} (hs : P s)
    (h : exec i s = .next t) : P t := by
  cases i with
  | init =>
    cases (exec_init s).symm.trans h
    exact hkept.respondOk _ _ (hkept.initSession s hs)
  | update data =>
    cases hready : s.ready with
    | false =>
      cases (exec_update_of_not_ready data hready).symm.trans h
      exact hkept.raiseFault _ s hs
    | true =>
      cases (exec_update_of_ready data hready).symm.trans h
      exact hkept.respondOk _ _ (hkept.absorb data s hready hs)
  | digest =>
    cases hready : s.ready with
    | false =>
      cases (exec_digest_of_not_ready hready).symm.trans h
      exact hkept.raiseFault _ s hs
    | true =>
      cases (exec_digest_of_ready hready).symm.trans h
      exact hkept.respondOk _ _ (hkept.initSession s hs)
  | rdstatus =>
    cases (exec_rdstatus s).symm.trans h
    exact hkept.respondOk _ s hs

theorem Kept.step {P : State → Prop} (hkept : Kept P) {s t : State} (hs : P s) (h : step s = .next t) : P t := by
  obtain ⟨i, rest, -, hstep⟩ | ⟨why, rest, -, hstep⟩ | ⟨rest, -, hstep⟩ | ⟨-, hstep⟩ | ⟨-, hstep⟩ |
    ⟨-, hstep⟩ | ⟨-, hstep⟩ := step_cases s
  · exact hkept.exec (hkept.consumeTo rest s hs) (hstep.symm.trans h)
  · cases hstep.symm.trans h
    exact hkept.raiseFault _ _ (hkept.consumeTo rest s hs)
  · cases hstep.symm.trans h
    exact hkept.hardwareReset _ (hkept.consumeTo rest s hs)
  · cases hstep.symm.trans h
    exact hs
  · cases hstep.symm.trans h
  · cases hstep.symm.trans h
  · cases hstep.symm.trans h

/-! ### The sound states -/

/-- The record of a fault is 1 or 2, so recording one never makes it 3 (10_state.md R26). -/
theorem recordFault_ne_three (code : FaultCode) {fault : BitVec 2} (h : fault ≠ 3) : recordFault code fault ≠ 3 := by
  by_cases hzero : fault = 0
  · rw [hzero, recordFault_zero]
    cases code <;> decide
  · rwa [recordFault_of_ne_zero code hzero]

/-- The record after reset. -/
theorem zero_ne_three : (0 : BitVec 2) ≠ 3 := by decide

theorem kept_inv : Kept State.Inv where
  consumeTo _ _ hs := hs
  raiseFault code _ hs := ⟨hs.1, recordFault_ne_three code hs.2⟩
  hardwareReset _ _ := ⟨wf_nil, zero_ne_three⟩
  respondOk _ _ hs := hs
  initSession _ hs := ⟨wf_zeroStorage, hs.2⟩
  absorb data s _ hs := by
    obtain ⟨hwf, hfault⟩ := hs
    exact ⟨absorb_wf hwf, (keepsInterface_absorb data s).fault ▸ hfault⟩

/-- Settles O29: every write keeps the canonical form, and no record is 3. -/
theorem stepKeepsTheStateSound : Obligations.StepKeepsTheStateSound := by
  intro s t hs hstep
  exact kept_inv.step hs hstep

/-! ### `fill` and `total_length` -/

theorem Absorbed.toNat_fill {s t : State} {m : List Byte} (h : Absorbed s m t) :
    t.fill.toNat = (s.fill.toNat + m.length) % 64 := by
  rw [← length_significant, h.significant, length_blockTail, List.length_append, length_significant]

theorem Absorbed.toNat_totalLength {s t : State} {m : List Byte} (h : Absorbed s m t) :
    t.totalLength.toNat = (s.totalLength.toNat + m.length) % 2 ^ 64 := by
  rw [h.totalLength, BitVec.toNat_add, BitVec.toNat_ofNat, Nat.add_mod_mod]

/-- Both counts advance by the same number of bytes, and 64 divides 2^64. -/
theorem Absorbed.countInv {s t : State} {m : List Byte} (h : Absorbed s m t) (hready : s.ready = true)
    (hs : s.CountInv) : t.CountInv := by
  intro _
  have hcount := hs hready
  rw [h.toNat_fill, h.toNat_totalLength]
  omega

theorem kept_countInv : Kept State.CountInv where
  consumeTo _ _ hs := hs
  raiseFault _ _ hs := hs
  hardwareReset _ _ := nofun
  respondOk _ _ hs := hs
  initSession _ _ := fun _ => rfl
  absorb data s hready hs := (absorbed_absorb data s).countInv hready hs

/-- Settles O30: `INIT` sets both counts to 0, and `UPDATE` moves both by its payload. -/
theorem stepKeepsFillTiedToTotalLength : Obligations.StepKeepsFillTiedToTotalLength := by
  intro s t hs hstep
  exact kept_countInv.step hs hstep

/-- Settles O31: the empty buffer is canonical, `fault` is 0, and `ready` is not set. -/
theorem resetMeetsTheInvariants : Obligations.ResetMeetsTheInvariants := by
  have hreset (alg : Alg) : (State.resetFor alg).Inv ∧ (State.resetFor alg).CountInv :=
    ⟨⟨wf_nil, zero_ne_three⟩, nofun⟩
  exact ⟨hreset, hreset Config.resetAlg⟩

/-! ### `fault` and the instance -/

/-- No operation changes the instance (00_scope.md R2). -/
theorem kept_alg (alg : Alg) : Kept fun s => s.alg = alg where
  consumeTo _ _ hs := hs
  raiseFault _ _ hs := hs
  hardwareReset s hs := (hardwareReset_alg s).trans hs
  respondOk _ _ hs := hs
  initSession s hs := (initSession_alg s).trans hs
  absorb data s _ hs := by
    obtain ⟨-, -, -, -, halg, -⟩ := absorb_frame data s
    exact halg.trans hs

/-- From `s` to `t` a change of `fault` is to the code of the one reply in between, which has no result bytes. -/
def ReportsChangeOfFault (s t : State) : Prop :=
  t.fault ≠ s.fault → ∃ r, t.hostOut = s.hostOut ++ [r] ∧ r.resp.toNat = t.fault.toNat ∧ r.result = []

theorem reportsChangeOfFault_of_eq {s t : State} (h : t.fault = s.fault) : ReportsChangeOfFault s t :=
  fun hne => absurd h hne

/-- A fault that is recorded is recorded under the code of its response word (10_state.md R26). -/
theorem reportsChangeOfFault_raiseFault (code : FaultCode) (s : State) :
    ReportsChangeOfFault s (raiseFault code s) := by
  intro hne
  by_cases hzero : s.fault = 0
  · refine ⟨⟨faultResp code, []⟩, rfl, ?_, rfl⟩
    rw [raiseFault_fault, hzero, recordFault_zero]
    cases code <;> rfl
  · exact absurd (recordFault_of_ne_zero code hzero) hne

theorem exec_reportsChangeOfFault {i : Instr} {s t : State} (h : exec i s = .next t) :
    ReportsChangeOfFault s t := by
  obtain ⟨result, u, hexec, -, hkeeps⟩ | ⟨-, hexec⟩ := exec_answers i s
  · cases hexec.symm.trans h
    exact reportsChangeOfFault_of_eq hkeeps.fault
  · cases hexec.symm.trans h
    exact reportsChangeOfFault_raiseFault .notReady s

theorem step_reportsChangeOfFault {s t : State} (h : step s = .next t)
    (hnoReset : ∀ rest, decode s.hostIn ≠ .reset rest) : ReportsChangeOfFault s t := by
  obtain ⟨i, rest, -, hstep⟩ | ⟨why, rest, -, hstep⟩ | ⟨rest, hreset, -⟩ | ⟨-, hstep⟩ | ⟨-, hstep⟩ |
    ⟨-, hstep⟩ | ⟨-, hstep⟩ := step_cases s
  · exact exec_reportsChangeOfFault (s := consumeTo rest s) (hstep.symm.trans h)
  · cases hstep.symm.trans h
    exact reportsChangeOfFault_raiseFault .illegalCmd (consumeTo rest s)
  · exact absurd hreset (hnoReset rest)
  · cases hstep.symm.trans h
    exact reportsChangeOfFault_of_eq rfl
  · cases hstep.symm.trans h
  · cases hstep.symm.trans h
  · cases hstep.symm.trans h

/-- Settles O28: a recorded fault is kept, so a change is from 0, and it is reported. -/
theorem faultKeepsTheFirstCode : Obligations.FaultKeepsTheFirstCode := by
  intro s t hstep
  refine ⟨(kept_alg s.alg).step rfl hstep, fun hnoReset => ?_⟩
  have hkeeps := (step_keepsReadyAndFault hstep hnoReset).fault
  exact ⟨hkeeps, fun hne => ⟨not_imp_comm.mp hkeeps hne, step_reportsChangeOfFault hstep hnoReset hne⟩⟩

end Sys2Proof.Machine
end

section
/-! PROOF of the effect of `UPDATE` (43_update_buffer_manager.md R123 to R131): its closed form on the session, and the
buffer byte by byte from the writes it makes. -/

namespace Sys2Proof.Machine

/-! ### The session (R126) -/

theorem Absorbed.significant_eq_drop {s t : State} {m : List Byte} (h : Absorbed s m t) :
    t.significant = (s.significant ++ m).drop (64 * ((s.fill.toNat + m.length) / 64)) := by
  rw [h.significant, blockTail, List.length_append, length_significant]

/-- Settles O13: the payload is absorbed, and the interface sees one reply `OK`. -/
theorem updateHasItsClosedForm : Obligations.UpdateHasItsClosedForm := by
  intro s data hready
  have habsorbed := absorbed_absorb data s
  have hkeeps := keepsInterface_absorb data s
  refine ⟨_, exec_update_of_ready data hready, habsorbed.toNat_totalLength, habsorbed.toNat_fill, habsorbed.words,
    habsorbed.significant_eq_drop, habsorbed.ready.trans hready, hkeeps.fault, hkeeps.hostIn, ?_⟩
  rw [respondOk_hostOut, hkeeps.hostOut]
  rfl

/-- Settles O24: one `UPDATE` for each byte absorbs the same bytes. -/
theorem updateEachHasTheEffectOfUpdate : Obligations.UpdateEachHasTheEffectOfUpdate := by
  intro s bytes hready
  have hexpand : (Pseudo.updateEach bytes).expand = (bytes.map fun b => [b]).map .update := by
    rw [List.map_map]
    rfl
  have hflatten : (bytes.map fun b => [b]).flatten = bytes := List.flatMap_singleton' bytes
  obtain ⟨t, hrun, ht⟩ := execAll_updates_absorbed (bytes.map fun b => [b]) hready
  rw [hflatten] at ht
  exact ⟨t, _, hexpand ▸ hrun, exec_update_of_ready bytes hready,
    ht.sameSession ((absorbed_absorb bytes s).respondOk [])⟩

/-! ### The writes (R123, R125) -/

section Writes

variable {s : State} {data : List Byte}

/-- With no partial block the payload's tail goes to offset 0. -/
theorem absorb_storage_of_empty (h : s.fill.toNat = 0) :
    (absorb data s).storage = memWrite s.storage 0 (blockTail data) := by
  obtain ⟨hpos, -, -⟩ | ⟨hpos, -, -⟩ | ⟨-, habsorb⟩ := absorb_cases data s
  · omega
  · omega
  · rw [habsorb, absorbWhole_eq]
    rfl

/-- Bytes that do not complete the partial block go behind it. -/
theorem absorb_storage_of_room (hpos : 0 < s.fill.toNat) (h : s.fill.toNat + data.length < 64) :
    (absorb data s).storage = memWrite s.storage s.fill.toNat data := by
  obtain ⟨-, -, habsorb⟩ | ⟨-, hfull, -⟩ | ⟨hzero, -⟩ := absorb_cases data s
  · rw [habsorb]
    rfl
  · omega
  · omega

/-- Bytes that complete the partial block are absorbed through it. -/
theorem absorb_of_full (hpos : 0 < s.fill.toNat) (h : 64 ≤ s.fill.toNat + data.length) :
    absorb data s = absorbWhole (data.drop (bytesLeft s))
      (completeBlock (data.take (bytesLeft s)) (countBytes data.length s)) := by
  obtain ⟨-, hroom, -⟩ | ⟨-, -, habsorb⟩ | ⟨hzero, -⟩ := absorb_cases data s
  · omega
  · exact habsorb
  · omega

/-- The tail of what follows the completed block is the last `fill` bytes of the payload. -/
theorem blockTail_drop_bytesLeft (h : 64 ≤ s.fill.toNat + data.length) :
    blockTail (data.drop (bytesLeft s)) = data.drop (data.length - (s.fill.toNat + data.length) % 64) := by
  have hlt := fill_lt s
  have hleft : bytesLeft s = 64 - s.fill.toNat := rfl
  rw [blockTail, List.length_drop, List.drop_drop, hleft]
  congr 1
  omega

/-- The tail goes to offset 0 of the completed block. -/
theorem absorb_storage_of_full (hpos : 0 < s.fill.toNat) (h : 64 ≤ s.fill.toNat + data.length) :
    (absorb data s).storage =
      memWrite (memWrite s.storage s.fill.toNat (data.take (64 - s.fill.toNat))) 0
        (data.drop (data.length - (s.fill.toNat + data.length) % 64)) := by
  rw [absorb_of_full hpos h, absorbWhole_eq, ← blockTail_drop_bytesLeft h]
  rfl

end Writes

/-! ### The bytes (R131) -/

theorem getD_drop (l : List Byte) (n i : Nat) : (l.drop n).getD i 0 = l.getD (n + i) 0 := by
  simp only [List.getD, List.getElem?_drop]

theorem getD_take (l : List Byte) {n i : Nat} (h : i < n) : (l.take n).getD i 0 = l.getD i 0 := by
  simp only [List.getD, List.getElem?_take_of_lt h]

section Bytes

variable {s : State} {data : List Byte}

theorem readByte_absorb_of_empty (h : s.fill.toNat = 0) (a : Nat) :
    Memory.readByte (absorb data s).storage a =
      if a < data.length % 64 then data.getD (data.length - data.length % 64 + a) 0
      else Memory.readByte s.storage a := by
  have hlen := length_blockTail data
  have hcut : 64 * (data.length / 64) = data.length - data.length % 64 := by omega
  rw [absorb_storage_of_empty h, readByte_memWrite_of_fits _ (by omega), hlen, blockTail, getD_drop, hcut]
  simp only [Nat.zero_le, true_and, Nat.zero_add, Nat.sub_zero]

theorem readByte_absorb_of_room (hpos : 0 < s.fill.toNat) (h : s.fill.toNat + data.length < 64) (a : Nat) :
    Memory.readByte (absorb data s).storage a =
      if s.fill.toNat ≤ a ∧ a < s.fill.toNat + data.length then data.getD (a - s.fill.toNat) 0
      else Memory.readByte s.storage a := by
  rw [absorb_storage_of_room hpos h, readByte_memWrite_of_fits _ (by omega)]

theorem readByte_absorb_of_full (hpos : 0 < s.fill.toNat) (h : 64 ≤ s.fill.toNat + data.length) (a : Nat) :
    Memory.readByte (absorb data s).storage a =
      if a < (s.fill.toNat + data.length) % 64 then
        data.getD (data.length - (s.fill.toNat + data.length) % 64 + a) 0
      else if s.fill.toNat ≤ a ∧ a < 64 then data.getD (a - s.fill.toNat) 0
      else Memory.readByte s.storage a := by
  have hlt := fill_lt s
  have hfront : (data.take (64 - s.fill.toNat)).length = 64 - s.fill.toNat := by
    rw [List.length_take]
    omega
  have htail : (data.drop (data.length - (s.fill.toNat + data.length) % 64)).length =
      (s.fill.toNat + data.length) % 64 := by
    rw [List.length_drop]
    omega
  have hend : s.fill.toNat + (64 - s.fill.toNat) = 64 := by omega
  rw [absorb_storage_of_full hpos h, readByte_memWrite_of_fits _ (by omega), htail,
    readByte_memWrite_of_fits _ (by omega), hfront, hend, getD_drop]
  simp only [Nat.zero_le, true_and, Nat.zero_add, Nat.sub_zero]
  congr 1
  by_cases hin : s.fill.toNat ≤ a ∧ a < 64
  · rw [if_pos hin, if_pos hin, getD_take _ (by omega)]
  · rw [if_neg hin, if_neg hin]

/-- No byte outside the 64 is touched, whichever way `UPDATE` goes (20_memory.md R42). -/
theorem readByte_absorb_above {a : Nat} (h : 64 ≤ a) :
    Memory.readByte (absorb data s).storage a = Memory.readByte s.storage a := by
  have hlt := fill_lt s
  obtain hzero | hpos := Nat.eq_zero_or_pos s.fill.toNat
  · rw [absorb_storage_of_empty hzero, readByte_memWrite_above h]
  · by_cases hroom : s.fill.toNat + data.length < 64
    · rw [absorb_storage_of_room hpos hroom, readByte_memWrite_above h]
    · rw [absorb_storage_of_full hpos (by omega), readByte_memWrite_above h, readByte_memWrite_above h]

end Bytes

/-- Settles O14: by the three ways `UPDATE` goes; with an empty buffer and less than a block the tail is the payload. -/
theorem updateLeavesTheseBytes : Obligations.UpdateLeavesTheseBytes := by
  intro s data hready
  refine ⟨_, exec_update_of_ready data hready, fun a ha => ?_, fun a ha => readByte_absorb_above ha⟩
  rw [respondOk_storage]
  obtain hzero | hpos := Nat.eq_zero_or_pos s.fill.toNat
  · rw [readByte_absorb_of_empty hzero, hzero, Nat.zero_add]
    by_cases hshort : data.length < 64
    · simp [hshort, Nat.mod_eq_of_lt hshort]
    · simp [hshort]
  · by_cases hroom : s.fill.toNat + data.length < 64
    · rw [readByte_absorb_of_room hpos hroom, if_pos hroom]
    · rw [readByte_absorb_of_full hpos (by omega), if_neg hroom]
      congr 1
      by_cases hbelow : a < s.fill.toNat
      · rw [if_neg (by omega), if_pos (.inr hbelow)]
      · rw [if_pos (by omega), if_neg (by omega)]

/-- Settles O15: nothing is absorbed, so the session is the same, and the one write is of no bytes. -/
theorem emptyUpdateChangesNothing : Obligations.EmptyUpdateChangesNothing := by
  intro s hready
  have hkeeps := keepsInterface_absorb [] s
  obtain ⟨hwords, hfill, htotal, -⟩ := (absorbed_absorb [] s).sameSession (Absorbed.refl s)
  refine ⟨_, exec_update_of_ready [] hready, hwords, hfill, htotal, fun a => ?_,
    (absorbed_absorb [] s).ready.trans hready, hkeeps.fault, hkeeps.hostIn, ?_⟩
  · rw [respondOk_storage]
    obtain hzero | hpos := Nat.eq_zero_or_pos s.fill.toNat
    · rw [readByte_absorb_of_empty hzero]
      exact if_neg (Nat.not_lt_zero a)
    · rw [readByte_absorb_of_room (data := []) hpos (fill_lt s), if_neg (by simp)]
  · rw [respondOk_hostOut, hkeeps.hostOut]
    rfl

end Sys2Proof.Machine
end

section
/-! PROOF of what `DIGEST` computes (44_digest_finalizer.md R137 to R146): the final blocks are those of the significant
bytes and the padding, so that after an accepted message the result is the digest of that message. -/

namespace Sys2Proof.Machine

/-! ### Two final blocks (R138) -/

/-- Without room for the footer the zero-filled buffer is compressed first, and the cursor starts again at 0. -/
theorem finalizeMessage_of_no_room {s : State} (h : 56 ≤ s.fill.toNat) :
    finalizeMessage s = compressStorage (writeFooter (zeroFill 0 56
      (compressStorage (zeroFill (s.fill.toNat + 1) 64 (writeMarker s))))) := by
  have hnoRoom : 64 - (s.fill.toNat + 1) < 8 := by omega
  simp only [finalizeMessage, padFrom, extraBlock, cursorAfter, if_pos hnoRoom]
  rfl

/-- The first of the two blocks: marker and zeros behind the significant bytes. -/
theorem storageBlock_marker_zeros (s : State) :
    storageBlock (zeroFill (s.fill.toNat + 1) 64 (writeMarker s)).storage =
      Block.ofList (s.significant ++ [0x80] ++ List.replicate (63 - s.fill.toNat) 0) := by
  have hlt := fill_lt s
  have hcount : 64 - (s.fill.toNat + 1) = 63 - s.fill.toNat := by omega
  have hmarker : memRead (memWrite s.storage s.fill.toNat [markerByte]) 0 (s.fill.toNat + 1) =
      s.significant ++ [markerByte] :=
    memRead_memWrite_append (by rw [List.length_singleton]; omega)
  rw [zeroFill_storage, writeMarker_storage, hcount, storageBlock_memWrite (by rw [length_zeroBytes]; omega), hmarker]
  rfl

/-- The second: zeros up to the footer. -/
theorem memRead_zeros (m : Memory) : memRead (memWrite m 0 (zeroBytes 56)) 0 56 = List.replicate 56 0 := by
  have := memRead_memWrite_zero (m := m) (v := zeroBytes 56) (by rw [length_zeroBytes]; decide)
  rwa [length_zeroBytes] at this

theorem finalizeMessage_words_of_no_room {s : State} (h : 56 ≤ s.fill.toNat) :
    (finalizeMessage s).words = compressAll s.words
      (blocksOf (s.significant ++ [0x80] ++ List.replicate (63 - s.fill.toNat) 0) ++
        blocksOf (List.replicate 56 0 ++ lengthFooter s.alg s.totalLength.toNat)) := by
  have hlt := fill_lt s
  have hfirst : (s.significant ++ [0x80] ++ List.replicate (63 - s.fill.toNat) 0).length = 64 := by
    simp only [List.length_append, length_significant, List.length_singleton, List.length_replicate]
    omega
  have hsecond : (List.replicate 56 0 ++ lengthFooter s.alg s.totalLength.toNat).length = 64 := by
    rw [List.length_append, List.length_replicate, lengthFooter, length_enc64]
  rw [blocksOf_of_block hfirst, blocksOf_of_block hsecond, finalizeMessage_of_no_room h, compressStorage_words,
    storageBlock_writeFooter, zeroFill_storage, memRead_zeros, ← storageBlock_marker_zeros]
  simp

/-- Settles O16: one final block where the footer has room behind the marker, two where it has not. -/
theorem digestCompressesTheFinalBlocks : Obligations.DigestCompressesTheFinalBlocks := by
  intro s hready
  refine ⟨_, exec_digest_of_ready hready, ?_⟩
  rw [respondOk_hostOut, initSession_hostOut]
  by_cases hroom : s.fill.toNat ≤ 55
  · rw [if_pos hroom, finalizeMessage_words_of_room hroom]
    rfl
  · rw [if_neg hroom, finalizeMessage_words_of_no_room (by omega)]
    rfl

/-! ### The padding (R146) -/

/-- What `pad` puts behind a message of `n` bytes. -/
def padding (alg : Alg) (n : Nat) : List Byte :=
  [0x80] ++ List.replicate (padZeros n) 0 ++ lengthFooter alg n

theorem padMessage_eq (alg : Alg) (m : List Byte) : padMessage alg m = m ++ padding alg m.length := by
  simp only [padMessage, padding, List.append_assoc]

/-- The number of zeros depends on the length modulo the block size alone. -/
theorem padZeros_mod (n : Nat) : padZeros (n % 64) = padZeros n := by
  rw [padZeros, Nat.mod_mod, padZeros]

/-- The footer depends on the length modulo 2^64 alone. -/
theorem lengthFooter_mod (alg : Alg) (n : Nat) : lengthFooter alg (n % 2 ^ 64) = lengthFooter alg n := by
  have hbits : BitVec.ofNat 64 (8 * (n % 2 ^ 64)) = BitVec.ofNat 64 (8 * n) :=
    BitVec.eq_of_toNat_eq (by simp only [BitVec.toNat_ofNat]; omega)
  rw [lengthFooter, hbits, lengthFooter]

/-- One final block or two, they are the blocks of the significant bytes and the padding. -/
theorem finalizeMessage_words (s : State) :
    (finalizeMessage s).words = compressAll s.words (blocksOf (s.significant ++
      ([0x80] ++ List.replicate (padZeros s.fill.toNat) 0 ++ lengthFooter s.alg s.totalLength.toNat))) := by
  have hlt := fill_lt s
  by_cases hroom : s.fill.toNat ≤ 55
  · have hzeros : padZeros s.fill.toNat = 55 - s.fill.toNat := by
      rw [padZeros]
      omega
    rw [finalizeMessage_words_of_room hroom, hzeros]
    simp only [List.append_assoc]
  · have hzeros : padZeros s.fill.toNat = (63 - s.fill.toNat) + 56 := by
      rw [padZeros]
      omega
    have hfirst : (s.significant ++ [0x80] ++ List.replicate (63 - s.fill.toNat) 0).length % 64 = 0 := by
      simp only [List.length_append, length_significant, List.length_singleton, List.length_replicate]
      omega
    rw [finalizeMessage_words_of_no_room (by omega), hzeros, ← blocksOf_append hfirst,
      ← List.replicate_append_replicate]
    simp only [List.append_assoc]

/-! ### A session that has accepted a message (10_state.md R30) -/

/-- The initialised session has accepted no byte. -/
theorem accepted_nil_initSession (s : State) : (initSession s).Accepted [] := by
  refine ⟨rfl, ?_, rfl, rfl, rfl⟩
  rw [initSession_words, initSession_alg, blocksOf_nil, compressAll_nil]

/-- A reply is no part of the session. -/
theorem accepted_respondOk {s : State} {m : List Byte} (result : List Byte) (h : s.Accepted m) :
    (respondOk result s).Accepted m := h

/-- What is absorbed extends the accepted message. -/
theorem Absorbed.accepted {s t : State} {m data : List Byte} (h : Absorbed s data t) (hs : s.Accepted m) :
    t.Accepted (m ++ data) := by
  obtain ⟨hready, hwords, hfill, htotal, hsig⟩ := hs
  have hsig' : s.significant = blockTail m := hsig
  have halg : t.alg = s.alg := by
    rw [State.alg, h.words, alg_compressAll]
    rfl
  refine ⟨h.ready.trans hready, ?words, ?fill, ?total, ?significant⟩
  case words =>
    rw [h.words, hsig', hwords, halg, ← compressAll_append, ← blocksOf_append_blockTail]
  case fill =>
    rw [h.toNat_fill, hfill, List.length_append, Nat.mod_add_mod]
  case total =>
    rw [h.toNat_totalLength, htotal, List.length_append, Nat.mod_add_mod]
  case significant =>
    rw [h.significant, hsig', ← blockTail_append_blockTail]
    rfl

/-- Settles O20: `INIT` and `DIGEST` end in the initialised session, `UPDATE` absorbs, `RDSTATUS` only replies. -/
theorem commandsKeepTheAcceptedMessage : Obligations.CommandsKeepTheAcceptedMessage := by
  refine ⟨?init, ?update, ?digest, ?rdstatus⟩
  case init =>
    intro s t h
    cases (exec_init s).symm.trans h
    exact accepted_respondOk _ (accepted_nil_initSession s)
  case update =>
    intro s t m data hs h
    cases (exec_update_of_ready data hs.1).symm.trans h
    exact accepted_respondOk _ ((absorbed_absorb data s).accepted hs)
  case digest =>
    intro s t m hs h
    cases (exec_digest_of_ready hs.1).symm.trans h
    exact accepted_respondOk _ (accepted_nil_initSession s)
  case rdstatus =>
    intro s t m hs h
    cases (exec_rdstatus s).symm.trans h
    exact accepted_respondOk _ hs

/-- The finalizer of a session that accepted `m` iterates over the blocks of the padded message. -/
theorem serialise_finalizeMessage_of_accepted {s : State} {m : List Byte} (h : s.Accepted m) :
    serialise (finalizeMessage s).words = messageDigest s.alg m := by
  obtain ⟨-, hwords, hfill, htotal, hsig⟩ := h
  have hsig' : s.significant = blockTail m := hsig
  rw [messageDigest, padMessage_eq, blocksOf_append_blockTail, compressAll_append, ← hwords, finalizeMessage_words,
    hsig', hfill, htotal, padZeros_mod, lengthFooter_mod]
  rfl

/-- `DIGEST` of a session that accepted `m` replies with the digest of `m`. -/
theorem exec_digest_of_accepted {s : State} {m : List Byte} (h : s.Accepted m) :
    exec .digest s = .next (respondOk (messageDigest s.alg m) (initSession s)) := by
  rw [exec_digest_of_ready h.1, serialise_finalizeMessage_of_accepted h]

/-- Settles O21: the reply of that `DIGEST`. -/
theorem digestOfTheAcceptedMessage : Obligations.DigestOfTheAcceptedMessage := by
  intro s m h
  exact ⟨_, exec_digest_of_accepted h, rfl⟩

/-- Settles O22: after `INIT` no byte is accepted, and the `UPDATE`s absorb the concatenated payloads. -/
theorem sessionReturnsTheMessageDigest : Obligations.SessionReturnsTheMessageDigest := by
  intro s chunks
  have hfresh := accepted_respondOk [] (accepted_nil_initSession s)
  obtain ⟨t, hrun, habsorbed⟩ := execAll_updates_absorbed chunks hfresh.1
  have haccepted : t.Accepted chunks.flatten := habsorbed.accepted hfresh
  have halg : t.alg = s.alg := by
    rw [State.alg, habsorbed.words, alg_compressAll]
    exact initSession_alg s
  refine ⟨respondOk (messageDigest t.alg chunks.flatten) (initSession t), ?run, ?reply, habsorbed.fault⟩
  case run =>
    rw [execAll_cons _ (exec_init s), execAll_append _ hrun, execAll_cons _ (exec_digest_of_accepted haccepted)]
    rfl
  case reply =>
    rw [respondOk_hostOut, List.getLast?_concat, halg]
    rfl

end Sys2Proof.Machine
end

section
/-! PROOF that no step tells observationally equivalent states apart (10_state.md R38, R39): each operation keeps the
relation, `UPDATE` and `DIGEST` because they read no byte from `fill` up. -/

namespace Sys2Proof.Machine

/-! ### What reads the session -/

/-- The same bytes absorbed by two equal sessions leave equal sessions. -/
theorem SameSession.of_absorbed {s t s' t' : State} {m : List Byte} (h : SameSession s t) (hs : Absorbed s m s')
    (ht : Absorbed t m t') : SameSession s' t' := by
  obtain ⟨hwords, hfill, htotal, hsig⟩ := h
  refine ⟨?_, BitVec.eq_of_toNat_eq ?_, ?_, ?_⟩
  · rw [hs.words, ht.words, hwords, hsig]
  · rw [hs.toNat_fill, ht.toNat_fill, hfill]
  · rw [hs.totalLength, ht.totalLength, htotal]
  · rw [hs.significant, ht.significant, hsig]

/-- The finalizer reads the session and the instance alone. -/
theorem SameSession.finalizeMessage_words {s t : State} (h : SameSession s t) :
    (finalizeMessage s).words = (finalizeMessage t).words := by
  obtain ⟨hwords, hfill, htotal, hsig⟩ := h
  have halg : s.alg = t.alg := congrArg HashState.alg hwords
  rw [Machine.finalizeMessage_words, Machine.finalizeMessage_words, hwords, hfill, htotal, hsig, halg]

/-! ### The operations on equivalent states -/

section Operations

variable {s t : State}

theorem ObsEq.consumeTo (rest : List HostItem) (h : ObsEq s t) : ObsEq (consumeTo rest s) (consumeTo rest t) := by
  obtain ⟨halg, hready, hfault, -, hout, hsame⟩ := h
  exact ⟨halg, hready, hfault, rfl, hout, hsame⟩

theorem ObsEq.respondOk (result : List Byte) (h : ObsEq s t) : ObsEq (respondOk result s) (respondOk result t) := by
  obtain ⟨halg, hready, hfault, hin, hout, hsame⟩ := h
  exact ⟨halg, hready, hfault, hin, congrArg (· ++ _) hout, hsame⟩

theorem ObsEq.raiseFault (code : FaultCode) (h : ObsEq s t) : ObsEq (raiseFault code s) (raiseFault code t) := by
  obtain ⟨halg, hready, hfault, hin, hout, hsame⟩ := h
  exact ⟨halg, hready, congrArg (recordFault code) hfault, hin, congrArg (· ++ _) hout, hsame⟩

theorem ObsEq.hardwareReset (h : ObsEq s t) : ObsEq (hardwareReset s) (hardwareReset t) := by
  obtain ⟨halg, -, -, hin, hout, -⟩ := h
  refine ⟨?_, rfl, rfl, hin, hout, nofun⟩
  rw [hardwareReset_alg, hardwareReset_alg, halg]

theorem ObsEq.initSession (h : ObsEq s t) : ObsEq (initSession s) (initSession t) := by
  obtain ⟨halg, -, hfault, hin, hout, -⟩ := h
  refine ⟨?_, rfl, hfault, hin, hout, fun _ => ⟨congrArg iv halg, rfl, rfl, rfl⟩⟩
  rw [initSession_alg, initSession_alg, halg]

theorem ObsEq.absorb (data : List Byte) (hready : s.ready = true) (h : ObsEq s t) :
    ObsEq (absorb data s) (absorb data t) := by
  obtain ⟨-, hready', hfault, hin, hout, hsame⟩ := h
  have hs := keepsInterface_absorb data s
  have ht := keepsInterface_absorb data t
  have hsame' := (hsame hready).of_absorbed (absorbed_absorb data s) (absorbed_absorb data t)
  refine ⟨congrArg HashState.alg hsame'.1, ?_, ?_, ?_, ?_, fun _ => hsame'⟩
  · rw [(absorbed_absorb data s).ready, (absorbed_absorb data t).ready, hready']
  · rw [hs.fault, ht.fault, hfault]
  · rw [hs.hostIn, ht.hostIn, hin]
  · rw [hs.hostOut, ht.hostOut, hout]

/-! ### The commands and the step -/

theorem ObsEq.exec (i : Instr) (h : ObsEq s t) : ObsEqOutcome (exec i s) (exec i t) := by
  have ⟨_, hready', hfault, _, _, hsame⟩ := h
  cases i with
  | init => exact h.initSession.respondOk []
  | update data =>
    cases hready : s.ready with
    | false =>
      rw [exec_update_of_not_ready data hready, exec_update_of_not_ready data (hready'.symm.trans hready)]
      exact h.raiseFault .notReady
    | true =>
      rw [exec_update_of_ready data hready, exec_update_of_ready data (hready'.symm.trans hready)]
      exact (h.absorb data hready).respondOk []
  | digest =>
    cases hready : s.ready with
    | false =>
      rw [exec_digest_of_not_ready hready, exec_digest_of_not_ready (hready'.symm.trans hready)]
      exact h.raiseFault .notReady
    | true =>
      rw [exec_digest_of_ready hready, exec_digest_of_ready (hready'.symm.trans hready),
        (hsame hready).finalizeMessage_words]
      exact h.initSession.respondOk _
  | rdstatus =>
    rw [exec_rdstatus, exec_rdstatus, hready', hfault]
    exact h.respondOk _

end Operations

/-- Settles O33: equal input has one reading, and whatever it asks for keeps the relation. -/
theorem stepKeepsObservationalEquivalence : Obligations.StepKeepsObservationalEquivalence := by
  intro s t h
  have ⟨_, _, _, hin, _, _⟩ := h
  simp only [step, fetch, ← hin]
  cases decode s.hostIn with
  | instr i rest => exact (h.consumeTo rest).exec i
  | illegal why rest => exact (h.consumeTo rest).raiseFault .illegalCmd
  | reset rest => exact (h.consumeTo rest).hardwareReset
  | idle => exact h
  | payloadAwaited => rfl
  | overlappingCommand => rfl
  | surplusPayload => rfl

end Sys2Proof.Machine
end

section
/-! PROOF that every write of `UPDATE` and `DIGEST` lies inside the buffer (20_memory.md R42): each is one `MemWrite` whose
run fits. -/

namespace Sys2Proof.Machine

/-! ### `UPDATE` -/

theorem absorb_writesInside_of_empty {s : State} {data : List Byte} (h : s.fill.toNat = 0) :
    WritesInside s (absorb data s) 0 (data.drop (64 * (data.length / 64))) := by
  have hlen := length_blockTail data
  have hfits : 0 + (blockTail data).length ≤ 64 := by omega
  exact writesInside_of_memWrite hfits (absorb_storage_of_empty h)

theorem absorb_writesInside_of_room {s : State} {data : List Byte} (hpos : 0 < s.fill.toNat)
    (h : s.fill.toNat + data.length < 64) :
    WritesInside s (absorb data s) s.fill.toNat data :=
  writesInside_of_memWrite (Nat.le_of_lt h) (absorb_storage_of_room hpos h)

/-- The bytes that complete the block end exactly at its end. -/
theorem completeBlock_writesInside (s : State) (data : List Byte) :
    WritesInside s (completeBlock (data.take (bytesLeft s)) (countBytes data.length s)) s.fill.toNat
      (data.take (64 - s.fill.toNat)) := by
  have hlt := fill_lt s
  refine writesInside_of_memWrite ?_ rfl
  rw [List.length_take]
  omega

theorem absorbWhole_writesInside (data : List Byte) (u : State) :
    WritesInside u (absorbWhole data u) 0 (blockTail data) := by
  have hlen := length_blockTail data
  refine writesInside_of_memWrite (by omega) ?_
  rw [absorbWhole_eq]
  rfl

/-! ### The finalizer -/

theorem writeMarker_writesInside (s : State) : WritesInside s (writeMarker s) s.fill.toNat [0x80] :=
  writesInside_of_memWrite (fill_lt s) rfl

/-- A zero fill up to `top` stays inside the buffer when `top` does. -/
theorem zeroFill_writesInside (s : State) {c top : Nat} (hc : c ≤ top) (htop : top ≤ 64) :
    WritesInside s (zeroFill c top s) c (List.replicate (top - c) 0) := by
  refine writesInside_of_memWrite ?_ rfl
  rw [List.length_replicate]
  omega

/-- The footer is the last eight bytes. -/
theorem writeFooter_writesInside (s : State) :
    WritesInside s (writeFooter s) 56 (lengthFooter s.alg s.totalLength.toNat) := by
  rw [← enc64_shl64x3]
  refine writesInside_of_memWrite ?_ rfl
  rw [length_enc64]

/-- What the extra block leaves for the footer to read. -/
theorem extraBlock_frame (c : Nat) (s : State) :
    (extraBlock c s).alg = s.alg ∧ (extraBlock c s).totalLength = s.totalLength := by
  rw [extraBlock]
  split
  · exact ⟨compressStorage_alg _, rfl⟩
  · exact ⟨rfl, rfl⟩

/-- `DIGEST`, its last state before the re-initialisation written out. -/
theorem exec_digest_eq_finalizeMessage {s : State} (hready : s.ready = true) :
    exec .digest s =
      .next (respondOk (serialise (finalizeMessage s).words) (initSession (finalizeMessage s))) := by
  rw [exec_digest_of_ready hready, initSession_finalizeMessage]

/-- The zero fills with room for the footer behind the marker (R139). -/
theorem zeroFill_writesInside_of_room {f : Nat} (m : State) (h : f ≤ 55) :
    extraBlock (f + 1) m = m ∧
      WritesInside (extraBlock (f + 1) m) (zeroFill (cursorAfter (f + 1)) 56 (extraBlock (f + 1) m)) (f + 1)
        (List.replicate (55 - f) 0) := by
  have hroom : ¬ 64 - (f + 1) < 8 := by omega
  have hcount : 55 - f = 56 - (f + 1) := by omega
  rw [extraBlock, if_neg hroom, cursorAfter, if_neg hroom, hcount]
  exact ⟨rfl, zeroFill_writesInside m (by omega) (by decide)⟩

/-- The zero fills without it: to the end of the buffer, then from offset 0 (R138, R139). -/
theorem zeroFill_writesInside_of_no_room {f : Nat} (m : State) (h : 56 ≤ f) (hf : f < 64) :
    WritesInside m (extraBlock (f + 1) m) (f + 1) (List.replicate (63 - f) 0) ∧
      WritesInside (extraBlock (f + 1) m) (zeroFill (cursorAfter (f + 1)) 56 (extraBlock (f + 1) m)) 0
        (List.replicate 56 0) := by
  have hnoRoom : 64 - (f + 1) < 8 := by omega
  have hcount : 63 - f = 64 - (f + 1) := by omega
  rw [cursorAfter, if_pos hnoRoom, extraBlock, if_pos hnoRoom, hcount]
  exact ⟨zeroFill_writesInside m (by omega) (by decide), zeroFill_writesInside _ (by decide) (by decide)⟩

/-- Settles O40: the writes of `UPDATE` by the way it goes, those of `DIGEST` one after another. -/
theorem everyWriteStaysInTheBuffer : Obligations.EveryWriteStaysInTheBuffer := by
  intro s hready
  refine ⟨fun data => ⟨_, exec_update_of_ready data hready, absorb_writesInside_of_empty,
    absorb_writesInside_of_room, ?full⟩, _, _, _, _, rfl, rfl, rfl, rfl, exec_digest_eq_finalizeMessage hready,
    writeMarker_writesInside s, zeroFill_writesInside_of_room _,
    fun h => zeroFill_writesInside_of_no_room _ h (fill_lt s), ?footer⟩
  case full =>
    intro hpos hfull
    rw [absorb_of_full hpos hfull, ← blockTail_drop_bytesLeft hfull]
    exact ⟨_, rfl, rfl, completeBlock_writesInside s data, absorbWhole_writesInside _ _⟩
  case footer =>
    obtain ⟨halg, htotal⟩ := extraBlock_frame (s.fill.toNat + 1) (writeMarker s)
    have hfooter := writeFooter_writesInside (zeroFill (cursorAfter (s.fill.toNat + 1)) (blockSize - footerBytes)
      (extraBlock (s.fill.toNat + 1) (writeMarker s)))
    rwa [zeroFill_alg, zeroFill_totalLength, halg, htotal] at hfooter

end Sys2Proof.Machine
end

section
/-! PROOF that the circular window is the unrolled schedule (41_compress_sha256.md R92, R97): before round `i` the window
holds the last sixteen schedule words, word `k` at entry `k mod 16`. -/

namespace Sys2Proof.Machine

/-! ### The recurrence -/

/-- More words do not change the first ones. -/
theorem getD_sha256Extend_of_lt (n : Nat) {w : List Word} {k : Nat} (h : k < w.length) :
    (sha256Extend n w).getD k 0 = w.getD k 0 := by
  induction n generalizing w with
  | zero => rfl
  | succ n ih =>
    rw [sha256Extend, ih (by rw [List.length_append]; omega), List.getD_append _ _ _ _ h]

/-- The word the recurrence puts behind the words `w` (R97). -/
def sha256NextWord (w : List Word) : Word :=
  sha256s1 (w.getD (w.length - 2) 0) + w.getD (w.length - 7) 0 + sha256s0 (w.getD (w.length - 15) 0) +
    w.getD (w.length - 16) 0

theorem sha256Extend_succ (n : Nat) (w : List Word) :
    sha256Extend (n + 1) w = sha256Extend n (w ++ [sha256NextWord w]) := rfl

/-- Each word after the given ones is the recurrence on the words before it. -/
theorem getD_sha256Extend {n : Nat} {w : List Word} {k : Nat} (h16 : 16 ≤ w.length) (hk : w.length ≤ k)
    (hn : k < w.length + n) :
    (sha256Extend n w).getD k 0 = sha256s1 ((sha256Extend n w).getD (k - 2) 0) + (sha256Extend n w).getD (k - 7) 0 +
      sha256s0 ((sha256Extend n w).getD (k - 15) 0) + (sha256Extend n w).getD (k - 16) 0 := by
  induction n generalizing w with
  | zero => omega
  | succ n ih =>
    obtain rfl | hlt := hk.eq_or_lt
    · have hold {d : Nat} (hd : 0 < d) (hd' : d ≤ 16) :
          (sha256Extend (n + 1) w).getD (w.length - d) 0 = w.getD (w.length - d) 0 :=
        getD_sha256Extend_of_lt _ (by omega)
      have hnew : (sha256Extend (n + 1) w).getD w.length 0 = sha256NextWord w := by
        rw [sha256Extend_succ, getD_sha256Extend_of_lt _ (by simp), List.getD_append_right _ _ _ _ le_rfl,
          Nat.sub_self, List.getD_cons_zero]
      rw [hnew, hold (by decide) (by decide), hold (by decide) (by decide), hold (by decide) (by decide),
        hold (by decide) (by decide), sha256NextWord]
    · have hlen : (w ++ [sha256NextWord w]).length = w.length + 1 := List.length_append
      exact ih (w := w ++ [sha256NextWord w]) (by omega) (by omega) (by omega)

@[simp] theorem length_parseBlock (o : ByteOrder) (b : Block) : (parseBlock o b).length = 16 := by
  simp [parseBlock, scheduleWords]

/-- The first sixteen schedule words are the parsed words of the block. -/
theorem getD_sha256Schedule_of_lt (b : Block) {k : Nat} (h : k < 16) :
    (sha256Schedule b).getD k 0 = (parseBlock .be b).getD k 0 :=
  getD_sha256Extend_of_lt 48 (by rwa [length_parseBlock])

theorem getD_sha256Schedule (b : Block) {k : Nat} (h16 : 16 ≤ k) (h64 : k < 64) :
    (sha256Schedule b).getD k 0 = sha256s1 ((sha256Schedule b).getD (k - 2) 0) + (sha256Schedule b).getD (k - 7) 0 +
      sha256s0 ((sha256Schedule b).getD (k - 15) 0) + (sha256Schedule b).getD (k - 16) 0 := by
  have hlen := length_parseBlock .be b
  exact getD_sha256Extend (by omega) (by omega) (by omega)

/-! ### The window -/

/-- The window `w` holds the sixteen words of the schedule `ws` below `e`, word `k` at entry `k mod 16`. -/
structure WindowHolds (ws : List Word) (e : Nat) (w : List Word) : Prop where
  length : w.length = 16
  entry : ∀ k, k < e → e ≤ k + 16 → w.getD (k % 16) 0 = ws.getD k 0

/-- The parsed words are the window before round 0. -/
theorem windowHolds_parseBlock (b : Block) : WindowHolds (sha256Schedule b) 16 (parseBlock .be b) where
  length := length_parseBlock .be b
  entry k hk _ := by rw [Nat.mod_eq_of_lt hk, getD_sha256Schedule_of_lt b hk]

/-- The window update adds the four terms of the recurrence in the opposite order. -/
theorem add_reversed (x y z t : Word) : x + y + z + t = t + z + y + x := by ac_rfl

/-- From round 16 on the update puts the next schedule word over the oldest. -/
theorem WindowHolds.update {b : Block} {i : Nat} {w : List Word} (h : WindowHolds (sha256Schedule b) i w)
    (h16 : 16 ≤ i) (h64 : i < 64) : WindowHolds (sha256Schedule b) (i + 1) (sha256Window i w) := by
  have hlen := h.length
  have hentry {j d : Nat} (hd : 0 < d) (hd' : d ≤ 16) (hj : (i - d) % 16 = j) :
      w.getD j 0 = (sha256Schedule b).getD (i - d) 0 := hj ▸ h.entry (i - d) (by omega) (by omega)
  have hnew : w.getD (i % 16) 0 + sha256s0 (w.getD ((i + 1) % 16) 0) + w.getD ((i + 9) % 16) 0 +
      sha256s1 (w.getD ((i + 14) % 16) 0) = (sha256Schedule b).getD i 0 := by
    rw [hentry (d := 16) (by omega) (by omega) (by omega), hentry (d := 15) (by omega) (by omega) (by omega),
      hentry (d := 7) (by omega) (by omega) (by omega), hentry (d := 2) (by omega) (by omega) (by omega),
      getD_sha256Schedule b h16 h64]
    exact add_reversed _ _ _ _
  rw [sha256Window, if_pos h16, hnew]
  refine ⟨by rw [List.length_set, hlen], fun k hk hk' => ?_⟩
  obtain rfl | hlt := (Nat.le_of_lt_succ hk).eq_or_lt
  · rw [List.getD_eq_getElem _ _ (by rw [List.length_set]; omega), List.getElem_set_self]
  · have hne : i % 16 ≠ k % 16 := by omega
    rw [List.getD, List.getElem?_set_ne hne, ← List.getD, h.entry k hlt (by omega)]

/-- Round `i` keeps the window on the schedule; before round 16 it does not move. -/
theorem WindowHolds.step {b : Block} {i : Nat} {w : List Word} (h : WindowHolds (sha256Schedule b) (max 16 i) w)
    (h64 : i < 64) : WindowHolds (sha256Schedule b) (max 16 (i + 1)) (sha256Window i w) := by
  by_cases h16 : 16 ≤ i
  · rw [max_eq_right h16] at h
    rw [max_eq_right (by omega)]
    exact h.update h16 h64
  · rw [max_eq_left (by omega)] at h ⊢
    rwa [sha256Window, if_neg h16]

/-! ### The rounds -/

/-- Rounds on such a window take their words from the schedule. -/
theorem sha256Rounds_eq_foldl {b : Block} (n : Nat) {i : Nat} {w : List Word} (r : Words8)
    (h : WindowHolds (sha256Schedule b) (max 16 i) w) (hn : i + n ≤ 64) :
    sha256Rounds n i w r =
      (List.range' i n).foldl (fun r j => sha256Round j ((sha256Schedule b).getD j 0) r) r := by
  induction n generalizing i w r with
  | zero => rfl
  | succ n ih =>
    have hnext := h.step (by omega)
    rw [sha256Rounds, List.range'_succ, List.foldl_cons, ih _ hnext (by omega), hnext.entry i (by omega) (by omega)]

/-- Settles O35: both functions run the same 64 rounds. -/
theorem windowIsTheUnrolledSchedule : Obligations.WindowIsTheUnrolledSchedule := by
  intro h b
  have hrounds := sha256Rounds_eq_foldl 64 (i := 0) h (windowHolds_parseBlock b) (by decide)
  rw [compressSha256s, sha256Unrolled, List.range_eq_range', ← hrounds]
  rfl

end Sys2Proof.Machine
end

section
/-! PROOF of the mixed-width view of a block (20_memory.md R45) and of the shift and rotate formulas (00_scope.md R11). -/

namespace Sys2Proof.Machine

/-! ### Bytes of words -/

/-- A byte appended below moves the bytes up one place. -/
theorem extractByte_append_succ {n : Nat} (x : BitVec n) (b : Byte) (k : Nat) :
    (x ++ b).extractLsb' (8 * (k + 1)) 8 = x.extractLsb' (8 * k) 8 := by
  rw [BitVec.extractLsb'_append_eq_of_le (by omega)]
  rfl

/-- Byte `k` of a big-endian word, the least significant first, is the byte `k` places before its last one. -/
theorem extractByte_parse32be (b0 b1 b2 b3 : Byte) {k : Nat} (hk : k < 4) :
    (parse32be b0 b1 b2 b3).extractLsb' (8 * k) 8 = [b3, b2, b1, b0].getD k 0 := by
  match k, hk with
  | 0, _ => exact BitVec.extractLsb'_append_eq_right
  | 1, _ => exact (extractByte_append_succ _ b3 0).trans BitVec.extractLsb'_append_eq_right
  | 2, _ =>
    exact (extractByte_append_succ _ b3 1).trans
      ((extractByte_append_succ _ b2 0).trans BitVec.extractLsb'_append_eq_right)
  | 3, _ =>
    exact (extractByte_append_succ _ b3 2).trans ((extractByte_append_succ _ b2 1).trans
      ((extractByte_append_succ b0 b1 0).trans BitVec.extractLsb'_eq_self))

/-- Byte `k` of a little-endian word is the byte at offset `k`. -/
theorem extractByte_parse32le (b0 b1 b2 b3 : Byte) {k : Nat} (hk : k < 4) :
    (parse32le b0 b1 b2 b3).extractLsb' (8 * k) 8 = [b0, b1, b2, b3].getD k 0 := by
  rw [parse32le_eq_parse32be_reversed, extractByte_parse32be _ _ _ _ hk]

theorem getD_reverse_four (b0 b1 b2 b3 : Byte) {k : Nat} (hk : k < 4) :
    [b3, b2, b1, b0].getD (3 - k) 0 = [b0, b1, b2, b3].getD k 0 := by
  interval_cases k <;> rfl

/-- The four bytes at an offset of a list, by their place. -/
theorem getD_four (l : List Byte) (a : Nat) {k : Nat} (hk : k < 4) :
    [l.getD a 0, l.getD (a + 1) 0, l.getD (a + 2) 0, l.getD (a + 3) 0].getD k 0 = l.getD (a + k) 0 := by
  interval_cases k <;> rfl

/-- Word `t` of a block is parsed from its bytes `4t .. 4t+3`. -/
theorem getD_parseBlock (o : ByteOrder) (b : Block) {t : Nat} (ht : t < 16) :
    (parseBlock o b).getD t 0 = parse32 o (b.bytes.getD (4 * t) 0) (b.bytes.getD (4 * t + 1) 0)
      (b.bytes.getD (4 * t + 2) 0) (b.bytes.getD (4 * t + 3) 0) := by
  simp only [parseBlock, scheduleWords, List.getD, List.getElem?_map, List.getElem?_range ht, Option.map_some,
    Option.getD_some]

/-- Settles O36: offset `o` is byte `o mod 4` of the four that word `o / 4` is parsed from. -/
theorem blockBytesAreBytesOfWords : Obligations.BlockBytesAreBytesOfWords := by
  intro b o ho
  have hword : o / 4 < 16 := by omega
  have hbyte : o % 4 < 4 := by omega
  have hrev : 24 - 8 * (o % 4) = 8 * (3 - o % 4) := by omega
  constructor
  · rw [getD_parseBlock .be b hword, hrev, parse32, extractByte_parse32be _ _ _ _ (by omega),
      getD_reverse_four _ _ _ _ hbyte, getD_four _ _ hbyte, Nat.div_add_mod]
  · rw [getD_parseBlock .le b hword, parse32, extractByte_parse32le _ _ _ _ hbyte, getD_four _ _ hbyte,
      Nat.div_add_mod]

/-! ### Shifts and rotates -/

theorem toNat_shiftRight (x : Word) (n : Nat) : (x >>> n).toNat = x.toNat / 2 ^ n := by
  rw [BitVec.toNat_ushiftRight, Nat.shiftRight_eq_div_pow]

theorem toNat_shiftLeft (x : Word) (n : Nat) : (x <<< n).toNat = (x.toNat * 2 ^ n) % 2 ^ 32 := by
  rw [BitVec.toNat_shiftLeft, Nat.shiftLeft_eq]

/-- Settles O38: a rotate is two shifts or-ed together, and each shift has its formula. -/
theorem shiftAndRotateFormulas : Obligations.ShiftAndRotateFormulas := by
  intro x n _ _
  refine ⟨toNat_shiftRight x n, ?_, ?_⟩
  · rw [rotl32, BitVec.toNat_or, toNat_shiftLeft, toNat_shiftRight]
  · rw [rotr32, BitVec.toNat_or, toNat_shiftRight, toNat_shiftLeft]

end Sys2Proof.Machine
end
